-- ==== Sys2Proof/Word.lean ====
section
/-! DEFINITION. The types of HCC's values: bytes, 32-bit words, and the 64-bit value as a pair of 32-bit halves (R9, R12, R120). -/

namespace Sys2Proof

/-- One byte of a byte string or byte buffer (R11). -/
abbrev Byte := BitVec 8

/-- A 32-bit word: a register, a state word, a command word (R9). -/
abbrev Word := BitVec 32

/-- A 64-bit value as its high and low 32-bit halves (R12, R120). -/
structure Pair where
  h : Word
  l : Word
deriving DecidableEq, Repr

end Sys2Proof
end

