-- ==== Sys2Proof/Machine/Bits.lean ====
section
/-! DEFINITION. The word operators, byte strings and 64-bit pairs of the spec's notation (R10, R11, R12). Addition modulo 2^32 and 2^64, exclusive or, and, or, complement are BitVec's own. -/

namespace Sys2Proof.Machine

/-- `SHR32(a, n)`: shifted right by n, zeros in (R10). -/
def shr32 (a : Word) (n : Nat) : Word := a >>> n

/-- `ROTL32(a, n)` for 0 <= n <= 31 (R10). -/
def rotl32 (a : Word) (n : Nat) : Word := if n = 0 then a else (a <<< n) ||| (a >>> (32 - n))

/-- `ROTR32(a, n)` for 0 <= n <= 31 (R10). -/
def rotr32 (a : Word) (n : Nat) : Word := if n = 0 then a else (a >>> n) ||| (a <<< (32 - n))

/-- `SHR64(a, n)` (R10). -/
def shr64 (a : BitVec 64) (n : Nat) : BitVec 64 := a >>> n

/-- `ROTR64(a, n)` for 0 <= n <= 63 (R10). -/
def rotr64 (a : BitVec 64) (n : Nat) : BitVec 64 := if n = 0 then a else (a >>> n) ||| (a <<< (64 - n))

/-- Byte `i` of a byte string; the callers stay inside it (R11). -/
def byteAt (b : List Byte) (i : Nat) : Byte := b.getD i 0

/-- `BE32(b, i)`: four bytes from index i, the first the most significant (R11). -/
def be32 (b : List Byte) (i : Nat) : Word :=
  BitVec.ofNat 32 ((byteAt b i).toNat * 2 ^ 24 + (byteAt b (i + 1)).toNat * 2 ^ 16 + (byteAt b (i + 2)).toNat * 2 ^ 8 + (byteAt b (i + 3)).toNat)

/-- `LE32(b, i)`: four bytes from index i, the first the least significant (R11). -/
def le32 (b : List Byte) (i : Nat) : Word :=
  BitVec.ofNat 32 ((byteAt b i).toNat + (byteAt b (i + 1)).toNat * 2 ^ 8 + (byteAt b (i + 2)).toNat * 2 ^ 16 + (byteAt b (i + 3)).toNat * 2 ^ 24)

/-- `bytesBE(v, n)`: the n bytes of v modulo 2^(8n), most significant first (R11). -/
def bytesBE (v n : Nat) : List Byte := (List.range n).map fun i => BitVec.ofNat 8 (v / 256 ^ (n - 1 - i))

/-- `bytesLE(v, n)`: the n bytes of v modulo 2^(8n), least significant first (R11). -/
def bytesLE (v n : Nat) : List Byte := (List.range n).map fun i => BitVec.ofNat 8 (v / 256 ^ i)

/-- `val(P)`: the 64-bit value h*2^32 + l (R12). -/
def pairVal (p : Pair) : BitVec 64 := p.h ++ p.l

/-- `pair(v)`: the pair of a 64-bit value (R12). -/
def pairOf (v : BitVec 64) : Pair := { h := v.extractLsb' 32 32, l := v.extractLsb' 0 32 }

/-- `BE64(b, i)` = BE32(b, i)*2^32 + BE32(b, i+4) (R11). -/
def be64 (b : List Byte) (i : Nat) : BitVec 64 := pairVal { h := be32 b i, l := be32 b (i + 4) }

end Sys2Proof.Machine
end

