-- ==== Sys2Proof/Machine/Sha1.lean ====
section
/-! DEFINITION. SHA-1's compression function (42_sha1.md, R170 to R178). -/

namespace Sys2Proof.Machine

/-- The round constant of round t, by band t div 20 (R172). -/
def sha1K (t : Nat) : Word :=
  match t / 20 with
  | 0 => 0x5A827999
  | 1 => 0x6ED9EBA1
  | 2 => 0x8F1BBCDC
  | _ => 0xCA62C1D6

/-- The boolean function f_t, by band t div 20 (R173). -/
def sha1F (t : Nat) (b c d : Word) : Word :=
  match t / 20 with
  | 0 => (b &&& c) ||| (~~~b &&& d)
  | 1 => b ^^^ c ^^^ d
  | 2 => (b &&& c) ||| (b &&& d) ||| (c &&& d)
  | _ => b ^^^ c ^^^ d

/-- The message schedule W[0..79] of a block (R174). -/
def sha1Schedule (blk : List Byte) : List Word :=
  (List.range' 16 64).foldl
    (fun W t => W ++ [rotl32 (W.getD (t - 3) 0 ^^^ W.getD (t - 8) 0 ^^^ W.getD (t - 14) 0 ^^^ W.getD (t - 16) 0) 1])
    ((List.range 16).map fun t => be32 blk (4 * t))

/-- Five working variables: a to e of SHA-1, A to E of a RIPEMD-160 line (R50). -/
structure Regs5 where
  a : Word
  b : Word
  c : Word
  d : Word
  e : Word
deriving DecidableEq, Repr

/-- Round t with schedule word w (R175). -/
def sha1Round (t : Nat) (w : Word) (r : Regs5) : Regs5 :=
  { a := rotl32 r.a 5 + sha1F t r.b r.c r.d + r.e + sha1K t + w
    b := r.a
    c := rotl32 r.b 30
    d := r.c
    e := r.d }

/-- Rounds 0 to n-1 over a schedule. -/
def sha1Rounds (W : List Word) (r : Regs5) (n : Nat) : Regs5 :=
  (List.range n).foldl (fun r t => sha1Round t (W.getD t 0) r) r

/-- COMPRESS_SHA1(H, blk) (R176, R178). -/
def compressSha1 (H : Vector Word 16) (blk : List Byte) : Vector Word 16 :=
  let v := sha1Rounds (sha1Schedule blk) ⟨H[0], H[1], H[2], H[3], H[4]⟩ 80
  #v[H[0] + v.a, H[1] + v.b, H[2] + v.c, H[3] + v.d, H[4] + v.e,
     H[5], H[6], H[7], H[8], H[9], H[10], H[11], H[12], H[13], H[14], H[15]]

/-- IV(SHA-1) (R171). -/
def ivSha1 : Vector Word 16 :=
  #v[0x67452301, 0xEFCDAB89, 0x98BADCFE, 0x10325476, 0xC3D2E1F0, 0, 0, 0, 0, 0, 0, 0, 0, 0, 0, 0]

end Sys2Proof.Machine
end

