-- ==== Sys2Proof/Machine/Rmd160.lean ====
section
/-! DEFINITION. RIPEMD-160's compression function in two lines (45_ripemd160.md, R230 to R238). -/

namespace Sys2Proof.Machine

/-- The boolean function f(j, x, y, z), by band j div 16 (R232). -/
def rmdF (j : Nat) (x y z : Word) : Word :=
  match j / 16 with
  | 0 => x ^^^ y ^^^ z
  | 1 => (x &&& y) ||| (~~~x &&& z)
  | 2 => (x ||| ~~~y) ^^^ z
  | 3 => (x &&& z) ||| (y &&& ~~~z)
  | _ => x ^^^ (y ||| ~~~z)

/-- K1, the left line's constant of a band (R233). -/
def rmdK1 (band : Nat) : Word :=
  match band with
  | 0 => 0x00000000
  | 1 => 0x5A827999
  | 2 => 0x6ED9EBA1
  | 3 => 0x8F1BBCDC
  | _ => 0xA953FD4E

/-- K2, the right line's constant of a band (R233). -/
def rmdK2 (band : Nat) : Word :=
  match band with
  | 0 => 0x50A28BE6
  | 1 => 0x5C4DD124
  | 2 => 0x6D703EF3
  | 3 => 0x7A6D76E9
  | _ => 0x00000000

/-- r1, the word read by step j of the left line, bands of sixteen (R234). -/
def rmdR1 : List Nat :=
    [0, 1, 2, 3, 4, 5, 6, 7, 8, 9, 10, 11, 12, 13, 14, 15] ++
    [7, 4, 13, 1, 10, 6, 15, 3, 12, 0, 9, 5, 2, 14, 11, 8] ++
    [3, 10, 14, 4, 9, 15, 8, 1, 2, 7, 0, 6, 13, 11, 5, 12] ++
    [1, 9, 11, 10, 0, 8, 12, 4, 13, 3, 7, 15, 14, 5, 6, 2] ++
    [4, 0, 5, 9, 7, 12, 2, 10, 14, 1, 3, 8, 11, 6, 15, 13]

/-- r2, the word read by step j of the right line (R234). -/
def rmdR2 : List Nat :=
    [5, 14, 7, 0, 9, 2, 11, 4, 13, 6, 15, 8, 1, 10, 3, 12] ++
    [6, 11, 3, 7, 0, 13, 5, 10, 14, 15, 8, 12, 4, 9, 1, 2] ++
    [15, 5, 1, 3, 7, 14, 6, 9, 11, 8, 12, 2, 10, 0, 4, 13] ++
    [8, 6, 4, 1, 3, 11, 15, 0, 5, 12, 2, 13, 9, 7, 10, 14] ++
    [12, 15, 10, 4, 1, 5, 8, 7, 6, 2, 13, 14, 0, 3, 9, 11]

/-- s1, the rotation amount of step j of the left line (R235). -/
def rmdS1 : List Nat :=
    [11, 14, 15, 12, 5, 8, 7, 9, 11, 13, 14, 15, 6, 7, 9, 8] ++
    [7, 6, 8, 13, 11, 9, 7, 15, 7, 12, 15, 9, 11, 7, 13, 12] ++
    [11, 13, 6, 7, 14, 9, 13, 15, 14, 8, 13, 6, 5, 12, 7, 5] ++
    [11, 12, 14, 15, 14, 15, 9, 8, 9, 14, 5, 6, 8, 6, 5, 12] ++
    [9, 15, 5, 11, 6, 8, 13, 12, 5, 12, 13, 14, 11, 8, 5, 6]

/-- s2, the rotation amount of step j of the right line (R235). -/
def rmdS2 : List Nat :=
    [8, 9, 9, 11, 13, 15, 15, 5, 7, 7, 8, 11, 14, 14, 12, 6] ++
    [9, 13, 15, 7, 12, 8, 9, 11, 7, 7, 12, 7, 6, 15, 13, 11] ++
    [9, 7, 15, 11, 8, 6, 6, 14, 12, 13, 5, 14, 13, 13, 7, 5] ++
    [15, 5, 8, 11, 14, 14, 6, 14, 6, 9, 12, 9, 12, 5, 15, 8] ++
    [8, 5, 12, 9, 12, 5, 14, 6, 8, 13, 6, 5, 15, 13, 11, 11]

/-- One step of one line with function index g, constant k, word x and rotation s (R236). -/
def rmdStep (g : Nat) (k x : Word) (s : Nat) (r : Regs5) : Regs5 :=
  { a := r.e
    b := rotl32 (r.a + rmdF g r.b r.c r.d + x + k) s + r.e
    c := r.b
    d := rotl32 r.c 10
    e := r.d }

/-- The block's sixteen little-endian words (R66, R230). -/
def rmdWords (blk : List Byte) : List Word := (List.range 16).map fun j => le32 blk (4 * j)

/-- Steps 0 to n-1 of the left line (R236). -/
def rmdLeft (X : List Word) (r : Regs5) (n : Nat) : Regs5 :=
  (List.range n).foldl (fun r j => rmdStep j (rmdK1 (j / 16)) (X.getD (rmdR1.getD j 0) 0) (rmdS1.getD j 0) r) r

/-- Steps 0 to n-1 of the right line, whose functions run in the reverse order (R232, R236). -/
def rmdRight (X : List Word) (r : Regs5) (n : Nat) : Regs5 :=
  (List.range n).foldl (fun r j => rmdStep (79 - j) (rmdK2 (j / 16)) (X.getD (rmdR2.getD j 0) 0) (rmdS2.getD j 0) r) r

/-- COMPRESS_RMD160(H, blk), with the merge of R237 (R238). -/
def compressRmd160 (H : Vector Word 16) (blk : List Byte) : Vector Word 16 :=
  let X := rmdWords blk
  let start : Regs5 := ⟨H[0], H[1], H[2], H[3], H[4]⟩
  let l := rmdLeft X start 80
  let r := rmdRight X start 80
  #v[H[1] + l.c + r.d, H[2] + l.d + r.e, H[3] + l.e + r.a, H[4] + l.a + r.b, H[0] + l.b + r.c,
     H[5], H[6], H[7], H[8], H[9], H[10], H[11], H[12], H[13], H[14], H[15]]

/-- IV(RIPEMD-160), the same five words as SHA-1's (R231). -/
def ivRmd160 : Vector Word 16 :=
  #v[0x67452301, 0xEFCDAB89, 0x98BADCFE, 0x10325476, 0xC3D2E1F0, 0, 0, 0, 0, 0, 0, 0, 0, 0, 0, 0]

end Sys2Proof.Machine
end

