-- ==== Sys2Proof/Machine/Sha256.lean ====
section
/-! DEFINITION. SHA-256's compression function (43_sha256.md, R190 to R197). -/

namespace Sys2Proof.Machine

/-- The round constants K[0..63] (R192). -/
def sha256KTable : List Word :=
    [0x428A2F98, 0x71374491, 0xB5C0FBCF, 0xE9B5DBA5,
     0x3956C25B, 0x59F111F1, 0x923F82A4, 0xAB1C5ED5,
     0xD807AA98, 0x12835B01, 0x243185BE, 0x550C7DC3,
     0x72BE5D74, 0x80DEB1FE, 0x9BDC06A7, 0xC19BF174] ++
    [0xE49B69C1, 0xEFBE4786, 0x0FC19DC6, 0x240CA1CC,
     0x2DE92C6F, 0x4A7484AA, 0x5CB0A9DC, 0x76F988DA,
     0x983E5152, 0xA831C66D, 0xB00327C8, 0xBF597FC7,
     0xC6E00BF3, 0xD5A79147, 0x06CA6351, 0x14292967] ++
    [0x27B70A85, 0x2E1B2138, 0x4D2C6DFC, 0x53380D13,
     0x650A7354, 0x766A0ABB, 0x81C2C92E, 0x92722C85,
     0xA2BFE8A1, 0xA81A664B, 0xC24B8B70, 0xC76C51A3,
     0xD192E819, 0xD6990624, 0xF40E3585, 0x106AA070] ++
    [0x19A4C116, 0x1E376C08, 0x2748774C, 0x34B0BCB5,
     0x391C0CB3, 0x4ED8AA4A, 0x5B9CCA4F, 0x682E6FF3,
     0x748F82EE, 0x78A5636F, 0x84C87814, 0x8CC70208,
     0x90BEFFFA, 0xA4506CEB, 0xBEF9A3F7, 0xC67178F2]

/-- K[t] (R192); t stays in 0..63 (R152). -/
def sha256K (t : Nat) : Word := sha256KTable.getD t 0

/-- Ch (R193). -/
def sha256Ch (x y z : Word) : Word := (x &&& y) ^^^ (~~~x &&& z)

/-- Maj (R193). -/
def sha256Maj (x y z : Word) : Word := (x &&& y) ^^^ (x &&& z) ^^^ (y &&& z)

/-- S0, the document's capital sigma 0 (R193). -/
def sha256BigS0 (x : Word) : Word := rotr32 x 2 ^^^ rotr32 x 13 ^^^ rotr32 x 22

/-- S1, capital sigma 1 (R193). -/
def sha256BigS1 (x : Word) : Word := rotr32 x 6 ^^^ rotr32 x 11 ^^^ rotr32 x 25

/-- s0, small sigma 0 (R193). -/
def sha256SmallS0 (x : Word) : Word := rotr32 x 7 ^^^ rotr32 x 18 ^^^ shr32 x 3

/-- s1, small sigma 1 (R193). -/
def sha256SmallS1 (x : Word) : Word := rotr32 x 17 ^^^ rotr32 x 19 ^^^ shr32 x 10

/-- The message schedule W[0..63] of a block (R194). -/
def sha256Schedule (blk : List Byte) : List Word :=
  (List.range' 16 48).foldl
    (fun W t => W ++ [sha256SmallS1 (W.getD (t - 2) 0) + W.getD (t - 7) 0 + sha256SmallS0 (W.getD (t - 15) 0) + W.getD (t - 16) 0])
    ((List.range 16).map fun t => be32 blk (4 * t))

/-- Eight working variables a to h, of words, of pairs or of 64-bit values (R50). -/
structure Regs8 (α : Type) where
  a : α
  b : α
  c : α
  d : α
  e : α
  f : α
  g : α
  h : α
deriving DecidableEq, Repr

/-- Round t with schedule word w (R195). -/
def sha256Round (t : Nat) (w : Word) (r : Regs8 Word) : Regs8 Word :=
  let t1 := r.h + sha256BigS1 r.e + sha256Ch r.e r.f r.g + sha256K t + w
  let t2 := sha256BigS0 r.a + sha256Maj r.a r.b r.c
  { a := t1 + t2, b := r.a, c := r.b, d := r.c, e := r.d + t1, f := r.e, g := r.f, h := r.g }

/-- Rounds 0 to n-1 over a schedule. -/
def sha256Rounds (W : List Word) (r : Regs8 Word) (n : Nat) : Regs8 Word :=
  (List.range n).foldl (fun r t => sha256Round t (W.getD t 0) r) r

/-- COMPRESS_SHA256(H, blk) (R196, R197). -/
def compressSha256 (H : Vector Word 16) (blk : List Byte) : Vector Word 16 :=
  let v := sha256Rounds (sha256Schedule blk) ⟨H[0], H[1], H[2], H[3], H[4], H[5], H[6], H[7]⟩ 64
  #v[H[0] + v.a, H[1] + v.b, H[2] + v.c, H[3] + v.d, H[4] + v.e, H[5] + v.f, H[6] + v.g, H[7] + v.h,
     H[8], H[9], H[10], H[11], H[12], H[13], H[14], H[15]]

/-- IV(SHA-256) (R191). -/
def ivSha256 : Vector Word 16 :=
  #v[0x6A09E667, 0xBB67AE85, 0x3C6EF372, 0xA54FF53A, 0x510E527F, 0x9B05688C, 0x1F83D9AB, 0x5BE0CD19, 0, 0, 0, 0, 0, 0, 0, 0]

end Sys2Proof.Machine
end

