-- ==== Sys2Proof/Machine/Emu64.lean ====
section
/-! DEFINITION. The 64-bit emulation layer's operations on pairs of 32-bit halves (40_emu64.md, R120, R121, R126 to R128). The lane-level form is the normative one (D30). -/

namespace Sys2Proof.Machine

/-- Exclusive or, half by half (R120). -/
def pairXor (p q : Pair) : Pair := ⟨p.h ^^^ q.h, p.l ^^^ q.l⟩

/-- And, half by half (R120). -/
def pairAnd (p q : Pair) : Pair := ⟨p.h &&& q.h, p.l &&& q.l⟩

/-- Complement, half by half (R120). -/
def pairNot (p : Pair) : Pair := ⟨~~~p.h, ~~~p.l⟩

/-- The sum of one 16-bit lane of every operand. -/
def laneSum (ps : List Pair) (lane : Pair → Word) : Word := ps.foldl (fun acc p => acc + lane p) 0

/-- LANEADD of 2 to 5 pairs: four 16-bit lanes with the carry passed upward, the carry out of lane 3 discarded (R121). -/
def laneAdd (ps : List Pair) : Pair :=
  let w0 := laneSum ps fun p => p.l &&& 0xFFFF
  let w1 := laneSum ps (fun p => p.l >>> 16) + (w0 >>> 16)
  let w2 := laneSum ps (fun p => p.h &&& 0xFFFF) + (w1 >>> 16)
  let w3 := laneSum ps (fun p => p.h >>> 16) + (w2 >>> 16)
  { h := ((w3 &&& 0xFFFF) <<< 16) ||| (w2 &&& 0xFFFF)
    l := ((w1 &&& 0xFFFF) <<< 16) ||| (w0 &&& 0xFFFF) }

/-- Rotate right by n, 0 <= n <= 31; n = 0 is the identity (R126). -/
def pairRotr (x : Pair) (n : Nat) : Pair :=
  if n = 0 then x
  else
    { h := (x.h >>> n) ||| (x.l <<< (32 - n))
      l := (x.l >>> n) ||| (x.h <<< (32 - n)) }

/-- Rotate right by 32 + n, 0 <= n <= 31; n = 0 swaps the halves (R127). -/
def pairRotrx (x : Pair) (n : Nat) : Pair :=
  if n = 0 then ⟨x.l, x.h⟩
  else
    { h := (x.l >>> n) ||| (x.h <<< (32 - n))
      l := (x.h >>> n) ||| (x.l <<< (32 - n)) }

/-- Logical shift right by n, 0 <= n <= 31; n = 0 is the identity (R128). -/
def pairShr (x : Pair) (n : Nat) : Pair :=
  if n = 0 then x
  else
    { h := x.h >>> n
      l := (x.l >>> n) ||| (x.h <<< (32 - n)) }

end Sys2Proof.Machine
end

