-- ==== Sys2Proof/Machine/Sha512.lean ====
section
/-! DEFINITION. SHA-512's compression function on pairs, through the emulation layer (44_sha512.md, R210 to R216), and the same function on native 64-bit words, which R217 allows. -/

namespace Sys2Proof.Machine

/-- The round constants K[0..79] as 64-bit words (R214). -/
def sha512KTable : List (BitVec 64) :=
    [0x428A2F98D728AE22, 0x7137449123EF65CD, 0xB5C0FBCFEC4D3B2F, 0xE9B5DBA58189DBBC,
     0x3956C25BF348B538, 0x59F111F1B605D019, 0x923F82A4AF194F9B, 0xAB1C5ED5DA6D8118,
     0xD807AA98A3030242, 0x12835B0145706FBE, 0x243185BE4EE4B28C, 0x550C7DC3D5FFB4E2,
     0x72BE5D74F27B896F, 0x80DEB1FE3B1696B1, 0x9BDC06A725C71235, 0xC19BF174CF692694] ++
    [0xE49B69C19EF14AD2, 0xEFBE4786384F25E3, 0x0FC19DC68B8CD5B5, 0x240CA1CC77AC9C65,
     0x2DE92C6F592B0275, 0x4A7484AA6EA6E483, 0x5CB0A9DCBD41FBD4, 0x76F988DA831153B5,
     0x983E5152EE66DFAB, 0xA831C66D2DB43210, 0xB00327C898FB213F, 0xBF597FC7BEEF0EE4,
     0xC6E00BF33DA88FC2, 0xD5A79147930AA725, 0x06CA6351E003826F, 0x142929670A0E6E70] ++
    [0x27B70A8546D22FFC, 0x2E1B21385C26C926, 0x4D2C6DFC5AC42AED, 0x53380D139D95B3DF,
     0x650A73548BAF63DE, 0x766A0ABB3C77B2A8, 0x81C2C92E47EDAEE6, 0x92722C851482353B,
     0xA2BFE8A14CF10364, 0xA81A664BBC423001, 0xC24B8B70D0F89791, 0xC76C51A30654BE30,
     0xD192E819D6EF5218, 0xD69906245565A910, 0xF40E35855771202A, 0x106AA07032BBD1B8] ++
    [0x19A4C116B8D2D0C8, 0x1E376C085141AB53, 0x2748774CDF8EEB99, 0x34B0BCB5E19B48A8,
     0x391C0CB3C5C95A63, 0x4ED8AA4AE3418ACB, 0x5B9CCA4F7763E373, 0x682E6FF3D6B2B8A3,
     0x748F82EE5DEFB2FC, 0x78A5636F43172F60, 0x84C87814A1F0AB72, 0x8CC702081A6439EC,
     0x90BEFFFA23631E28, 0xA4506CEBDE82BDE9, 0xBEF9A3F7B2C67915, 0xC67178F2E372532B] ++
    [0xCA273ECEEA26619C, 0xD186B8C721C0C207, 0xEADA7DD6CDE0EB1E, 0xF57D4F7FEE6ED178,
     0x06F067AA72176FBA, 0x0A637DC5A2C898A6, 0x113F9804BEF90DAE, 0x1B710B35131C471B,
     0x28DB77F523047D84, 0x32CAAB7B40C72493, 0x3C9EBE0A15C9BEBC, 0x431D67C49C100D4C,
     0x4CC5D4BECB3E42B6, 0x597F299CFC657E2A, 0x5FCB6FAB3AD6FAEC, 0x6C44198C4A475817]

/-- K[t] as a 64-bit word (R214); t stays in 0..79 (R152). -/
def sha512K (t : Nat) : BitVec 64 := sha512KTable.getD t 0

/-- Ch, half-wise (R215). -/
def sha512Ch (x y z : Pair) : Pair := pairXor (pairAnd x y) (pairAnd (pairNot x) z)

/-- Maj, half-wise (R215). -/
def sha512Maj (x y z : Pair) : Pair := pairXor (pairXor (pairAnd x y) (pairAnd x z)) (pairAnd y z)

/-- S0: rotations by 28, 34, 39 (R215). -/
def sha512BigS0 (x : Pair) : Pair := pairXor (pairXor (pairRotr x 28) (pairRotrx x 2)) (pairRotrx x 7)

/-- S1: rotations by 14, 18, 41 (R215). -/
def sha512BigS1 (x : Pair) : Pair := pairXor (pairXor (pairRotr x 14) (pairRotr x 18)) (pairRotrx x 9)

/-- s0: rotations by 1, 8, shift by 7 (R215). -/
def sha512SmallS0 (x : Pair) : Pair := pairXor (pairXor (pairRotr x 1) (pairRotr x 8)) (pairShr x 7)

/-- s1: rotations by 19, 61, shift by 6 (R215). -/
def sha512SmallS1 (x : Pair) : Pair := pairXor (pairXor (pairRotr x 19) (pairRotrx x 29)) (pairShr x 6)

/-- The zero pair, which no index inside a schedule reaches. -/
def pairZero : Pair := ⟨0, 0⟩

/-- The message schedule W[0..79] of a block, by the four-operand add (R212). -/
def sha512Schedule (blk : List Byte) : List Pair :=
  (List.range' 16 64).foldl
    (fun W t => W ++ [laneAdd [sha512SmallS1 (W.getD (t - 2) pairZero), W.getD (t - 7) pairZero,
      sha512SmallS0 (W.getD (t - 15) pairZero), W.getD (t - 16) pairZero]])
    ((List.range 16).map fun t => ⟨be32 blk (8 * t), be32 blk (8 * t + 4)⟩)

/-- Round t with schedule pair w: T1 by the five-operand add, T2 by the two-operand add (R213). -/
def sha512Round (t : Nat) (w : Pair) (r : Regs8 Pair) : Regs8 Pair :=
  let t1 := laneAdd [r.h, sha512BigS1 r.e, sha512Ch r.e r.f r.g, pairOf (sha512K t), w]
  let t2 := laneAdd [sha512BigS0 r.a, sha512Maj r.a r.b r.c]
  { a := laneAdd [t1, t2], b := r.a, c := r.b, d := r.c, e := laneAdd [r.d, t1], f := r.e, g := r.f, h := r.g }

/-- Rounds 0 to n-1 over a schedule. -/
def sha512Rounds (W : List Pair) (r : Regs8 Pair) (n : Nat) : Regs8 Pair :=
  (List.range n).foldl (fun r t => sha512Round t (W.getD t pairZero) r) r

/-- State word j: the pair {H[2j], H[2j+1]} (R34, R210). -/
def sha512Words (H : Vector Word 16) : Regs8 Pair :=
  ⟨⟨H[0], H[1]⟩, ⟨H[2], H[3]⟩, ⟨H[4], H[5]⟩, ⟨H[6], H[7]⟩, ⟨H[8], H[9]⟩, ⟨H[10], H[11]⟩, ⟨H[12], H[13]⟩, ⟨H[14], H[15]⟩⟩

/-- The sixteen halves of eight pairs (R34). -/
def sha512Halves (r : Regs8 Pair) : Vector Word 16 :=
  #v[r.a.h, r.a.l, r.b.h, r.b.l, r.c.h, r.c.l, r.d.h, r.d.l, r.e.h, r.e.l, r.f.h, r.f.l, r.g.h, r.g.l, r.h.h, r.h.l]

/-- COMPRESS_SHA512(H, blk) (R216). -/
def compressSha512 (H : Vector Word 16) (blk : List Byte) : Vector Word 16 :=
  let S := sha512Words H
  let v := sha512Rounds (sha512Schedule blk) S 80
  sha512Halves
    ⟨laneAdd [S.a, v.a], laneAdd [S.b, v.b], laneAdd [S.c, v.c], laneAdd [S.d, v.d],
     laneAdd [S.e, v.e], laneAdd [S.f, v.f], laneAdd [S.g, v.g], laneAdd [S.h, v.h]⟩

/-- IV(SHA-512) as sixteen halves (R211). -/
def ivSha512 : Vector Word 16 :=
  #v[0x6A09E667, 0xF3BCC908, 0xBB67AE85, 0x84CAA73B, 0x3C6EF372, 0xFE94F82B, 0xA54FF53A, 0x5F1D36F1,
     0x510E527F, 0xADE682D1, 0x9B05688C, 0x2B3E6C1F, 0x1F83D9AB, 0xFB41BD6B, 0x5BE0CD19, 0x137E2179]

/-! The native form of R217, for stating that the two are equal; no command uses it. -/

/-- s0 on a native word: ROTR64 by 1, 8; SHR64 by 7 (R215, R217). -/
def native512SmallS0 (x : BitVec 64) : BitVec 64 := rotr64 x 1 ^^^ rotr64 x 8 ^^^ shr64 x 7

/-- s1 on a native word: ROTR64 by 19, 61; SHR64 by 6 (R215, R217). -/
def native512SmallS1 (x : BitVec 64) : BitVec 64 := rotr64 x 19 ^^^ rotr64 x 61 ^^^ shr64 x 6

/-- S0 on a native word: ROTR64 by 28, 34, 39 (R215, R217). -/
def native512BigS0 (x : BitVec 64) : BitVec 64 := rotr64 x 28 ^^^ rotr64 x 34 ^^^ rotr64 x 39

/-- S1 on a native word: ROTR64 by 14, 18, 41 (R215, R217). -/
def native512BigS1 (x : BitVec 64) : BitVec 64 := rotr64 x 14 ^^^ rotr64 x 18 ^^^ rotr64 x 41

/-- The schedule on native words, W[t] = BE64(blk, 8t) for t < 16 (R217). -/
def native512Schedule (blk : List Byte) : List (BitVec 64) :=
  (List.range' 16 64).foldl
    (fun W t => W ++ [native512SmallS1 (W.getD (t - 2) 0) + W.getD (t - 7) 0 + native512SmallS0 (W.getD (t - 15) 0) + W.getD (t - 16) 0])
    ((List.range 16).map fun t => be64 blk (8 * t))

/-- Round t on native words (R213, R217). -/
def native512Round (t : Nat) (w : BitVec 64) (r : Regs8 (BitVec 64)) : Regs8 (BitVec 64) :=
  let t1 := r.h + native512BigS1 r.e + ((r.e &&& r.f) ^^^ (~~~r.e &&& r.g)) + sha512K t + w
  let t2 := native512BigS0 r.a + ((r.a &&& r.b) ^^^ (r.a &&& r.c) ^^^ (r.b &&& r.c))
  { a := t1 + t2, b := r.a, c := r.b, d := r.c, e := r.d + t1, f := r.e, g := r.f, h := r.g }

/-- COMPRESS_SHA512 on native 64-bit words: state word j is BE of H[2j], H[2j+1] (R217). -/
def compressNative512 (H : Vector Word 16) (blk : List Byte) : Vector Word 16 :=
  let S := sha512Words H
  let s : Regs8 (BitVec 64) :=
    ⟨pairVal S.a, pairVal S.b, pairVal S.c, pairVal S.d, pairVal S.e, pairVal S.f, pairVal S.g, pairVal S.h⟩
  let W := native512Schedule blk
  let v := (List.range 80).foldl (fun r t => native512Round t (W.getD t 0) r) s
  sha512Halves
    ⟨pairOf (s.a + v.a), pairOf (s.b + v.b), pairOf (s.c + v.c), pairOf (s.d + v.d),
     pairOf (s.e + v.e), pairOf (s.f + v.f), pairOf (s.g + v.g), pairOf (s.h + v.h)⟩

end Sys2Proof.Machine
end

