-- ==== Sys2Proof/Syntax.lean ====
section
/-! DEFINITION. The sixteen commands, one constructor per row of the opcode map (R97), with their operands. -/

namespace Sys2Proof

/-- The four algorithms, in the order of their ALG codes 0 to 3 (R92). -/
inductive Alg where
  | sha1
  | sha256
  | sha512
  | rmd160
deriving DecidableEq, Repr

/-- The two hash contexts that the CTX field selects (R93). -/
inductive CtxId where
  | ctx0
  | ctx1
deriving DecidableEq, Repr

/-- One command. `nb` counts valid message bytes (R94) and `n` is a shift or rotate amount (R95). -/
inductive Instr where
  /-- NOP (R140). -/
  | nop
  /-- INIT alg, ctx (R141). -/
  | init (alg : Alg) (c : CtxId)
  /-- COMPRESS ctx (R142). -/
  | compress (c : CtxId)
  /-- FINAL ctx, nb (R145). -/
  | final (c : CtxId) (nb : Nat)
  /-- SELFTEST alg (R147). -/
  | selftest (alg : Alg)
  /-- CLEAR (R148). -/
  | clear
  /-- HMAC_START alg (R252). -/
  | hmacStart (alg : Alg)
  /-- HMAC_FINAL nb (R253). -/
  | hmacFinal (nb : Nat)
  /-- KEYDIG (R254). -/
  | keydig
  /-- EADD2: OP 0x10 with K = 2 (R122). -/
  | eadd2
  /-- EADD3: OP 0x10 with K = 3 (R123). -/
  | eadd3
  /-- EADD4: OP 0x10 with K = 4 (R124). -/
  | eadd4
  /-- EADD5: OP 0x10 with K = 5 (R125). -/
  | eadd5
  /-- EROTR n (R126). -/
  | erotr (n : Nat)
  /-- EROTRX n (R127). -/
  | erotrx (n : Nat)
  /-- ESHR n (R128). -/
  | eshr (n : Nat)
deriving DecidableEq, Repr

end Sys2Proof
end

