-- ==== Sys2Proof/Machine/Digest.lean ====
section
/-! DEFINITION. What the four algorithms share: their sizes, IV, compression, serialisation, padding, and the digest of a whole message (R7, R68, R147, R150 to R155). -/

namespace Sys2Proof.Machine

/-- B, the block size in bytes (R7). -/
def blockBytes (alg : Alg) : Nat :=
  match alg with
  | .sha1 => 64
  | .sha256 => 64
  | .sha512 => 128
  | .rmd160 => 64

/-- D, the digest size in bytes (R7). -/
def digestBytes (alg : Alg) : Nat :=
  match alg with
  | .sha1 => 20
  | .sha256 => 32
  | .sha512 => 64
  | .rmd160 => 20

/-- F, the size of the padding's length field in bytes (R7). -/
def lengthBytes (alg : Alg) : Nat :=
  match alg with
  | .sha1 => 8
  | .sha256 => 8
  | .sha512 => 16
  | .rmd160 => 8

/-- IV(alg) (R154). -/
def ivOf (alg : Alg) : Vector Word 16 :=
  match alg with
  | .sha1 => ivSha1
  | .sha256 => ivSha256
  | .sha512 => ivSha512
  | .rmd160 => ivRmd160

/-- COMPRESS_alg(H, blk) (R153). -/
def compressBlock (alg : Alg) (H : Vector Word 16) (blk : List Byte) : Vector Word 16 :=
  match alg with
  | .sha1 => compressSha1 H blk
  | .sha256 => compressSha256 H blk
  | .sha512 => compressSha512 H blk
  | .rmd160 => compressRmd160 H blk

/-- COMPRESS_alg over blocks in order. -/
def compressBlocks (alg : Alg) (H : Vector Word 16) (blks : List (List Byte)) : Vector Word 16 :=
  blks.foldl (compressBlock alg) H

/-- SERIALIZE(alg, H): the state words as D bytes in the algorithm's byte order (R68). -/
def serialize (alg : Alg) (H : Vector Word 16) : List Byte :=
  match alg with
  | .sha1 => (H.toList.take 5).flatMap fun w => bytesBE w.toNat 4
  | .sha256 => (H.toList.take 8).flatMap fun w => bytesBE w.toNat 4
  | .sha512 => H.toList.flatMap fun w => bytesBE w.toNat 4
  | .rmd160 => (H.toList.take 5).flatMap fun w => bytesLE w.toNat 4

/-- The whole blocks of B bytes at the front of a byte string, in order. -/
def wholeBlocks (B : Nat) (p : List Byte) : List (List Byte) :=
  (List.range (p.length / B)).map fun i => (p.drop (i * B)).take B

/-- The padding's length field: F bytes, big-endian but for RIPEMD-160 (R150). -/
def lengthField (alg : Alg) (L : Nat) : List Byte :=
  match alg with
  | .sha1 => bytesBE (L % 2 ^ 64) 8
  | .sha256 => bytesBE (L % 2 ^ 64) 8
  | .sha512 => bytesBE (L % 2 ^ 128) 16
  | .rmd160 => bytesLE (L % 2 ^ 64) 8

/-- How many zero bytes bring len + F to a multiple of B: the count of R150's while loop. -/
def zeroFill (alg : Alg) (len : Nat) : Nat :=
  (blockBytes alg - (len + lengthBytes alg) % blockBytes alg) % blockBytes alg

/-- The padded bytes of PAD(alg, tail, L), before they are split (R150). -/
def padBytes (alg : Alg) (tail : List Byte) (L : Nat) : List Byte :=
  tail ++ [0x80] ++ List.replicate (zeroFill alg (tail.length + 1)) 0 ++ lengthField alg L

/-- PAD(alg, tail, L): one or two blocks (R150, R151). -/
def padBlocks (alg : Alg) (tail : List Byte) (L : Nat) : List (List Byte) :=
  wholeBlocks (blockBytes alg) (padBytes alg tail L)

/-- digest(alg, m) (R155). -/
def digestOf (alg : Alg) (m : List Byte) : List Byte :=
  let B := blockBytes alg
  let n := m.length / B
  let H := compressBlocks alg (ivOf alg) (wholeBlocks B m)
  serialize alg (compressBlocks alg H (padBlocks alg (m.drop (n * B)) (8 * m.length)))

/-- The three bytes "abc" (R147). -/
def abcBytes : List Byte := [0x61, 0x62, 0x63]

/-- REF(alg): the published digest of "abc" (R147). -/
def refDigest (alg : Alg) : List Byte :=
  match alg with
  | .sha1 => bytesBE 0xa9993e364706816aba3e25717850c26c9cd0d89d 20
  | .sha256 => bytesBE 0xba7816bf8f01cfea414140de5dae2223b00361a396177a9cb410ff61f20015ad 32
  | .sha512 => bytesBE 0xddaf35a193617abacc417349ae20413112e6fa4e89a97ea20a9eeee64b55d39a2192992a274fc1a836ba3c23a3feebbd454d4423643ce80e2a9ac94fa54ca49f 64
  | .rmd160 => bytesBE 0x8eb208f7e05d987a9b044a8e98c6b087f15a0bfc 20

end Sys2Proof.Machine
end

