-- ==== Sys2Proof/Machine/State.lean ====
section
/-! DEFINITION. The state of HCC (10_state.md), the outside world's accesses still to come, the reasons a step can stop, and the state after reset. -/

namespace Sys2Proof.Machine

/-- The byte buffers' contents: cells keyed by their byte offset in the window, in the canonical form `Memory.wf` (log 9). -/
abbrev Memory := List Host.Cell

/-- `CTX[c].STATE`: 0 IDLE, 1 ACTIVE, 2 FINAL; the value 3 never occurs (R32). -/
inductive CtxState where
  | idle
  | active
  | final
deriving DecidableEq, Repr

/-- One hash context: STATE, ALG, the HMAC flag, the message bit count LEN and the sixteen words H (R30 to R34). -/
structure Context where
  state : CtxState
  alg : Alg
  hmac : Bool
  len : BitVec 128
  h : Vector Word 16
deriving DecidableEq, Repr

/-- The error codes of a completed command; codes 4 to 15 never occur (R27, R270). -/
inductive ErrCode where
  | none
  | illegal
  | state
  | operand
deriving DecidableEq, Repr

/-- The stored fields of STATUS; BUSY is computed from the pending command (R24 to R29; log 10). -/
structure Status where
  done : Bool
  err : ErrCode
  werr : Bool
  cerr : Bool
  stpass : Bool
  dalg : Alg
  dlen : BitVec 7
deriving DecidableEq, Repr

/-- What the outside world does next: a host access with its byte offset in the window and its size in bytes (R60 to R62), the core's turn (R17, R310), or a reset (R300). -/
inductive Event where
  | read (addr size : Nat)
  | write (addr size : Nat) (v : Word)
  | core
  | reset
deriving DecidableEq, Repr

/-- What the bus answered to a host access: a read's value, a write's acceptance, or the bus error of R62. -/
inductive Answer where
  | data (v : Word)
  | ack
  | busError (addr : Nat)
deriving DecidableEq, Repr

/-- All of HCC's state (R20 to R51), then the model's own three fields: what is still to come from outside, the last answer on the bus, and the count of unspecified reads (log 1, log 4, log 14). -/
structure State where
  /-- CMD: the last command word issued (R23). -/
  cmd : Word
  /-- STATUS but for BUSY (R24). -/
  status : Status
  /-- CTRL bit 0, the interrupt enable (R36). -/
  ie : Bool
  /-- KEYLEN bits 7 to 0, the key length in bytes (R37). -/
  klen : BitVec 8
  /-- CTX[0] (R30). -/
  ctx0 : Context
  /-- CTX[1] (R30). -/
  ctx1 : Context
  /-- MSG, KEY and DIGEST (R38 to R40). -/
  mem : Memory
  /-- EA[0..4] (R41). -/
  ea : Vector Pair 5
  /-- ER (R42). -/
  er : Pair
  /-- The pending command; BUSY = 1 exactly while there is one (R25, R51, R310). -/
  pending : Option Word
  /-- Events still to come, the next one first (log 1). -/
  agenda : List Event
  /-- The bus's answer to the last host access (log 14). -/
  answer : Option Answer
  /-- How many reads have returned an unspecified value (log 4). -/
  freeReads : Nat
deriving DecidableEq, Repr

/-- Why a step stops. -/
inductive Fault where
  /-- Raised by a host access at a byte offset of 1024 or more, which is no part of HCC's one address space (R60). Safe: nothing is claimed of what the platform does there (log 7). -/
  | outsideWindow (addr : Nat)
deriving DecidableEq, Repr

/-- Why an instruction has no meaning. -/
inductive Refusal where
  /-- Raised by an arm of exec whose instruction is not modelled; no arm raises it. Safe: nothing is claimed of the instruction. -/
  | notModelled (mnemonic : String)
deriving DecidableEq, Repr

/-- A context after reset: IDLE and all zero, not the IV (R300). -/
def Context.reset : Context :=
  { state := .idle, alg := .sha1, hmac := false, len := 0, h := Vector.replicate 16 0 }

/-- STATUS after reset (R300). -/
def Status.reset : Status :=
  { done := false, err := .none, werr := false, cerr := false, stpass := false, dalg := .sha1, dlen := 0 }

/-- The machine right after reset (R20, R300); the model's own fields at rest (log 4, log 13). -/
def State.reset : State :=
  { cmd := 0, status := Status.reset, ie := false, klen := 0, ctx0 := Context.reset, ctx1 := Context.reset
    mem := [], ea := Vector.replicate 5 ⟨0, 0⟩, er := ⟨0, 0⟩, pending := none
    agenda := [], answer := none, freeReads := 0 }

end Sys2Proof.Machine
end

