-- ==== Sys2Proof/Machine/Memory.lean ====
section
/-! DEFINITION. The byte buffers MSG, KEY and DIGEST as one memory keyed by byte offset in the window (R38 to R40, R64), in canonical form (log 9). -/

namespace Sys2Proof.Machine

/-- What a byte that no cell lists reads as: every buffer byte is 0x00 after reset (R300). -/
def Memory.unlisted : Byte := 0x00

/-- The byte at offset a. -/
def Memory.read (m : Memory) (a : Nat) : Byte :=
  match m with
  | [] => Memory.unlisted
  | (b, v) :: rest => if b = a then v else Memory.read rest a

/-- A cell put in its place among cells of other addresses. -/
def Memory.insertCell (m : Memory) (a : Nat) (v : Byte) : Memory :=
  match m with
  | [] => [(a, v)]
  | (b, w) :: rest => if a < b then (a, v) :: (b, w) :: rest else (b, w) :: Memory.insertCell rest a v

/-- One byte written; writing what an unlisted byte reads as removes the cell. -/
def Memory.write (m : Memory) (a : Nat) (v : Byte) : Memory :=
  let others := m.filter fun c => c.1 != a
  if v = Memory.unlisted then others else Memory.insertCell others a v

/-- Bytes written from offset a upward. -/
def Memory.writeList (m : Memory) (a : Nat) (bs : List Byte) : Memory :=
  match bs with
  | [] => m
  | v :: rest => Memory.writeList (Memory.write m a v) (a + 1) rest

/-- n bytes read from offset a upward. -/
def Memory.readList (m : Memory) (a n : Nat) : List Byte := (List.range n).map fun i => Memory.read m (a + i)

/-- The canonical form: offsets strictly rising, no cell equal to what an unlisted byte reads as. -/
abbrev Memory.wf (m : Memory) : Prop :=
  m.Pairwise (fun c d => c.1 < d.1) ∧ ∀ c ∈ m, c.2 ≠ Memory.unlisted

/-- The byte offset of MSG[0] (R20, R38). -/
def msgBase : Nat := 0x100

/-- The byte offset of KEY[0] (R20, R39). -/
def keyBase : Nat := 0x180

/-- The byte offset of DIGEST[0] (R20, R40). -/
def digestBase : Nat := 0x200

/-- The byte offset just above DIGEST[63] (R20, R40). -/
def bufferEnd : Nat := 0x240

end Sys2Proof.Machine
end

