-- ==== Sys2Proof/Machine/Ops.lean ====
section
/-! DEFINITION. The named operations on the state: contexts, the buffers, issue, completion and command errors, reset. -/

namespace Sys2Proof.Machine

/-- STATUS.BUSY: 1 exactly while a command is pending (R25, R51; log 10). -/
def State.busy (s : State) : Bool := s.pending.isSome

/-- CTX[c] (R30). -/
def State.ctx (s : State) (c : CtxId) : Context :=
  match c with
  | .ctx0 => s.ctx0
  | .ctx1 => s.ctx1

/-- CTX[c] <- x (R30). -/
def State.setCtx (s : State) (c : CtxId) (x : Context) : State :=
  match c with
  | .ctx0 => { s with ctx0 := x }
  | .ctx1 => { s with ctx1 := x }

/-- A host write of v to CMD with BUSY = 0: the command is issued (R23, R310). -/
def State.issue (s : State) (v : Word) : State :=
  { s with cmd := v, pending := some v, status := { s.status with done := false, err := .none } }

/-- Completion with code e: ERR <- e, BUSY <- 0, DONE <- 1, the pending word discarded (R273, R310). -/
def State.complete (s : State) (e : ErrCode) : State :=
  { s with pending := none, status := { s.status with err := e, done := true } }

/-- A command that was performed completes with code NONE (R270, R273). -/
def succeed (s : State) : Host.Outcome State Fault Refusal := .next (s.complete .none)

/-- `raise CmdError(e)`: the command ends before any of its writes and completes with its code; this is all that a command error does, there is no trap entry (R13, R272, R273, R276). -/
def raiseError (s : State) (e : ErrCode) : Host.Outcome State Fault Refusal := .next (s.complete e)

/-- DIGEST[0..D) gets the serialised state, DIGEST[D..64) zeros, and DLEN and DALG say so (R145, R253). -/
def State.writeDigest (s : State) (alg : Alg) (H : Vector Word 16) : State :=
  { s with
    mem := Memory.writeList s.mem digestBase (serialize alg H ++ List.replicate (64 - digestBytes alg) 0)
    status := { s.status with dlen := BitVec.ofNat 7 (digestBytes alg), dalg := alg } }

/-- ER <- p (R42). -/
def State.setEr (s : State) (p : Pair) : State := { s with er := p }

/-- A context as INIT and HMAC_START leave it: ACTIVE, with the given algorithm, HMAC flag, bit count and words (R141, R252). -/
def startedContext (alg : Alg) (hmac : Bool) (bits : Nat) (H : Vector Word 16) : Context :=
  { state := .active, alg := alg, hmac := hmac, len := BitVec.ofNat 128 bits, h := H }

/-- Every register to its reset value, except CTRL and CMD (R148); the pending command stands until the completion. -/
def State.cleared (s : State) : State :=
  { s with
    status := Status.reset, klen := 0, ctx0 := Context.reset, ctx1 := Context.reset
    mem := [], ea := Vector.replicate 5 ⟨0, 0⟩, er := ⟨0, 0⟩ }

/-- The reset input: every register and field to its reset value, a pending command abandoned (R300). What is still to come from outside stays, and the count of unspecified reads goes on (log 4, log 8). -/
def State.resetPulse (s : State) : State := { State.reset with agenda := s.agenda, freeReads := s.freeReads }

/-- The last block or blocks of a message absorbed into H: PAD over the tail with total bit length L (R145, R253). -/
def absorbTail (alg : Alg) (H : Vector Word 16) (tail : List Byte) (L : Nat) : Vector Word 16 :=
  compressBlocks alg H (padBlocks alg tail L)

/-- A context finished with a tail: its bit count becomes the message's length L modulo 2^128, the padded tail is absorbed, STATE is FINAL (R145, R253). -/
def finishContext (x : Context) (alg : Alg) (tail : List Byte) : Context :=
  let L := x.len + BitVec.ofNat 128 (8 * tail.length)
  { x with h := absorbTail alg x.h tail L.toNat, len := L, state := .final }

end Sys2Proof.Machine
end

