-- ==== Sys2Proof/Machine/Operands.lean ====
section
/-! DEFINITION. The commands' implicit operands (R96): slices of MSG, KEY and DIGEST, the emulation operands, and the HMAC key block with its pads (R251). -/

namespace Sys2Proof.Machine

/-- MSG[0..n) (R38). -/
def msgSlice (s : State) (n : Nat) : List Byte := Memory.readList s.mem msgBase n

/-- DIGEST[0..n) (R40). -/
def digestSlice (s : State) (n : Nat) : List Byte := Memory.readList s.mem digestBase n

/-- KEY[i] (R39). -/
def keyByte (s : State) (i : Nat) : Byte := Memory.read s.mem (keyBase + i)

/-- EA[0..k-1], k <= 5 (R41, R96). -/
def eaOperands (s : State) (k : Nat) : List Pair := s.ea.toList.take k

/-- EA[0] (R41, R96). -/
def eaFirst (s : State) : Pair := s.ea[0]

/-- K0: the key's KLEN bytes, then zeros up to B (R251). -/
def keyBlock (s : State) (B : Nat) : List Byte :=
  (List.range B).map fun i => if i < s.klen.toNat then keyByte s i else 0

/-- IPAD: K0 with every byte xored with 0x36 (R251). -/
def innerPad (s : State) (B : Nat) : List Byte := (keyBlock s B).map fun b => b ^^^ 0x36

/-- OPAD: K0 with every byte xored with 0x5C (R251). -/
def outerPad (s : State) (B : Nat) : List Byte := (keyBlock s B).map fun b => b ^^^ 0x5C

/-- Whether ctx0 and ctx1 are ACTIVE HMAC contexts of one algorithm, what HMAC_FINAL needs (R253). -/
def hmacPairReady (s : State) : Bool :=
  s.ctx0.state == .active && s.ctx0.hmac && (s.ctx1.state == .active && s.ctx1.hmac) && s.ctx0.alg == s.ctx1.alg

end Sys2Proof.Machine
end

