-- ==== Sys2Proof/Machine/DigestCommands.lean ====
section
/-! DEFINITION. The meanings of NOP, INIT, COMPRESS, FINAL, SELFTEST and CLEAR (41_digest_commands.md). -/

namespace Sys2Proof.Machine

/-- NOP: the completion only (R140). -/
def execNop (s : State) : Host.Outcome State Fault Refusal := succeed s

/-- INIT alg, ctx: legal in every context state (R141). -/
def execInit (alg : Alg) (c : CtxId) (s : State) : Host.Outcome State Fault Refusal :=
  succeed (s.setCtx c (startedContext alg false 0 (ivOf alg)))

/-- COMPRESS ctx: one full block of MSG absorbed (R142). -/
def execCompress (c : CtxId) (s : State) : Host.Outcome State Fault Refusal :=
  let x := s.ctx c
  let B := blockBytes x.alg
  if x.state ≠ .active then raiseError s .state
  else
    succeed (s.setCtx c
      { x with h := compressBlock x.alg x.h (msgSlice s B), len := x.len + BitVec.ofNat 128 (8 * B) })

/-- FINAL ctx, nb: the tail padded and absorbed, the digest written (R145). -/
def execFinal (c : CtxId) (nb : Nat) (s : State) : Host.Outcome State Fault Refusal :=
  let x := s.ctx c
  if x.state ≠ .active then raiseError s .state
  else if blockBytes x.alg ≤ nb then raiseError s .operand
  else
    let y := finishContext x x.alg (msgSlice s nb)
    succeed ((s.setCtx c y).writeDigest x.alg y.h)

/-- SELFTEST alg: STPASS gets whether digest(alg, "abc") is the published one (R147; log 16). -/
def execSelftest (alg : Alg) (s : State) : Host.Outcome State Fault Refusal :=
  succeed { s with status := { s.status with stpass := decide (digestOf alg abcBytes = refDigest alg) } }

/-- CLEAR: soft reset of the data path (R148). -/
def execClear (s : State) : Host.Outcome State Fault Refusal := succeed s.cleared

end Sys2Proof.Machine
end

