-- ==== Sys2Proof/Machine/EmuCommands.lean ====
section
/-! DEFINITION. The meanings of EADD2 to EADD5, EROTR, EROTRX and ESHR: each reads EA and writes ER only (R122 to R128, R130). -/

namespace Sys2Proof.Machine

/-- ER <- LANEADD(EA[0..k-1]), shared by the four add commands (R121). -/
def eaddResult (k : Nat) (s : State) : State := s.setEr (laneAdd (eaOperands s k))

/-- EADD2 (R122). -/
def execEadd2 (s : State) : Host.Outcome State Fault Refusal := succeed (eaddResult 2 s)

/-- EADD3 (R123). -/
def execEadd3 (s : State) : Host.Outcome State Fault Refusal := succeed (eaddResult 3 s)

/-- EADD4 (R124). -/
def execEadd4 (s : State) : Host.Outcome State Fault Refusal := succeed (eaddResult 4 s)

/-- EADD5 (R125). -/
def execEadd5 (s : State) : Host.Outcome State Fault Refusal := succeed (eaddResult 5 s)

/-- EROTR n (R126). -/
def execErotr (n : Nat) (s : State) : Host.Outcome State Fault Refusal := succeed (s.setEr (pairRotr (eaFirst s) n))

/-- EROTRX n (R127). -/
def execErotrx (n : Nat) (s : State) : Host.Outcome State Fault Refusal := succeed (s.setEr (pairRotrx (eaFirst s) n))

/-- ESHR n (R128). -/
def execEshr (n : Nat) (s : State) : Host.Outcome State Fault Refusal := succeed (s.setEr (pairShr (eaFirst s) n))

end Sys2Proof.Machine
end

