-- ==== Sys2Proof/Machine/HmacCommands.lean ====
section
/-! DEFINITION. The meanings of HMAC_START, HMAC_FINAL and KEYDIG (46_hmac.md). -/

namespace Sys2Proof.Machine

/-- HMAC_START alg: the inner pad block absorbed into ctx0, the outer into ctx1 (R252). -/
def execHmacStart (alg : Alg) (s : State) : Host.Outcome State Fault Refusal :=
  let B := blockBytes alg
  if B < s.klen.toNat then raiseError s .operand
  else
    let inner := startedContext alg true (8 * B) (compressBlock alg (ivOf alg) (innerPad s B))
    let outer := startedContext alg true (8 * B) (compressBlock alg (ivOf alg) (outerPad s B))
    succeed ((s.setCtx .ctx0 inner).setCtx .ctx1 outer)

/-- HMAC_FINAL nb: the inner hash finished in ctx0, then the outer in ctx1 with the inner digest as its tail; only the outer digest goes to DIGEST (R253). -/
def execHmacFinal (nb : Nat) (s : State) : Host.Outcome State Fault Refusal :=
  let alg := s.ctx0.alg
  if hmacPairReady s = false then raiseError s .state
  else if blockBytes alg ≤ nb then raiseError s .operand
  else
    let inner := finishContext s.ctx0 alg (msgSlice s nb)
    let outer := finishContext s.ctx1 alg (serialize alg inner.h)
    succeed (((s.setCtx .ctx0 inner).setCtx .ctx1 outer).writeDigest alg outer.h)

/-- KEYDIG: the last digest moved into KEY, its length into KEYLEN (R254). -/
def execKeydig (s : State) : Host.Outcome State Fault Refusal :=
  let D := s.status.dlen.toNat
  if D = 0 then raiseError s .state
  else
    succeed
      { s with
        mem := Memory.writeList s.mem keyBase (digestSlice s D ++ List.replicate (128 - D) 0)
        klen := BitVec.ofNat 8 D }

end Sys2Proof.Machine
end

