-- ==== Sys2Proof/Machine/Dispatch.lean ====
section
/-! DEFINITION. Which meaning each command has: one arm per constructor of Instr. -/

namespace Sys2Proof.Machine

def exec (i : Instr) (s : State) : Host.Outcome State Fault Refusal :=
  match i with
  | .nop => Sys2Proof.Machine.execNop s
  | .init alg c => Sys2Proof.Machine.execInit alg c s
  | .compress c => Sys2Proof.Machine.execCompress c s
  | .final c nb => Sys2Proof.Machine.execFinal c nb s
  | .selftest alg => Sys2Proof.Machine.execSelftest alg s
  | .clear => Sys2Proof.Machine.execClear s
  | .hmacStart alg => Sys2Proof.Machine.execHmacStart alg s
  | .hmacFinal nb => Sys2Proof.Machine.execHmacFinal nb s
  | .keydig => Sys2Proof.Machine.execKeydig s
  | .eadd2 => Sys2Proof.Machine.execEadd2 s
  | .eadd3 => Sys2Proof.Machine.execEadd3 s
  | .eadd4 => Sys2Proof.Machine.execEadd4 s
  | .eadd5 => Sys2Proof.Machine.execEadd5 s
  | .erotr n => Sys2Proof.Machine.execErotr n s
  | .erotrx n => Sys2Proof.Machine.execErotrx n s
  | .eshr n => Sys2Proof.Machine.execEshr n s

end Sys2Proof.Machine
end

