-- ==== Sys2Proof/Config.lean ====
section
/-! DEFINITION. What is fixed for one HCC and one platform, and the values the spec leaves open. -/

namespace Sys2Proof.Config

/-- The ID register's constant, ASCII "HCC1" (R22). -/
def idValue : Word := 0x48434331

/-- HCC_BASE: where the platform places the 1024-byte window; left open by the spec (R8, R60; log 12). -/
opaque hccBase : Nat

/-- HCC_IRQ: the interrupt controller line the platform routes IRQ to; left open by the spec (R8, R280; log 12). -/
opaque hccIrq : Nat

/-- Free values: what the n-th read of a register that the pending command writes returns while BUSY = 1 (R321; log 4). -/
opaque busyRead : Nat → BitVec 32

end Sys2Proof.Config
end

