-- ==== Sys2Proof/WellFormed.lean ====
section
/-! DEFINITION. What operands a command word can carry: NB is an 8-bit count (R94), N a 5-bit amount (R95). Every ALG and CTX value is legal (R92, R93). -/

namespace Sys2Proof

/-- The operands fit their fields. Whether NB is in range for the algorithm is checked at execution and is no part of this (R94, R100). -/
def Instr.wellFormed (i : Instr) : Bool :=
  match i with
  | .final _ nb => decide (nb < 256)
  | .hmacFinal nb => decide (nb < 256)
  | .erotr n => decide (n < 32)
  | .erotrx n => decide (n < 32)
  | .eshr n => decide (n < 32)
  | .nop | .init _ _ | .compress _ | .selftest _ | .clear | .hmacStart _ | .keydig => true
  | .eadd2 | .eadd3 | .eadd4 | .eadd5 => true

end Sys2Proof
end

