-- ==== Sys2Proof/Decode.lean ====
section
/-! DEFINITION. The command encoding (30_encoding.md): the opcode map, the decoder, which is total and rejects by name, and the encoder written from the same map. -/

namespace Sys2Proof

/-- `v[hi:lo]` as an unsigned number (R9, R96). -/
def wordField (v : Word) (hi lo : Nat) : Nat := (v >>> lo).toNat % 2 ^ (hi - lo + 1)

/-- The ALG code of an algorithm (R92). -/
def algCode (alg : Alg) : Nat :=
  match alg with
  | .sha1 => 0
  | .sha256 => 1
  | .sha512 => 2
  | .rmd160 => 3

/-- The algorithm of a 2-bit ALG code; all four are legal (R92). -/
def algOfCode (k : Nat) : Alg :=
  match k with
  | 0 => .sha1
  | 1 => .sha256
  | 2 => .sha512
  | _ => .rmd160

/-- The CTX bit of a context (R93). -/
def ctxCode (c : CtxId) : Nat :=
  match c with
  | .ctx0 => 0
  | .ctx1 => 1

/-- The context a CTX bit selects (R93). -/
def ctxOfCode (k : Nat) : CtxId := if k = 0 then .ctx0 else .ctx1

/-- The rows' names (R97). -/
inductive Mnemonic where
  | nop | init | compress | final | selftest | clear | hmacStart | hmacFinal | keydig
  | eadd2 | eadd3 | eadd4 | eadd5 | erotr | erotrx | eshr
deriving DecidableEq, Repr

/-- One row of the opcode map: a word v selects it when v and mask give match (R97). -/
structure OpRow where
  name : Mnemonic
  code : Word
  mask : Word
deriving DecidableEq, Repr

/-- The opcode map (R97). -/
def opRows : List OpRow :=
  [ ⟨.nop, 0x00000000, 0xFFFFFFFF⟩,
    ⟨.init, 0x00000001, 0xFFFFECFF⟩,
    ⟨.compress, 0x00000002, 0xFFFFEFFF⟩,
    ⟨.final, 0x00000003, 0xFF00EFFF⟩,
    ⟨.selftest, 0x00000004, 0xFFFFFCFF⟩,
    ⟨.clear, 0x00000005, 0xFFFFFFFF⟩,
    ⟨.hmacStart, 0x00000008, 0xFFFFFCFF⟩,
    ⟨.hmacFinal, 0x00000009, 0xFF00FFFF⟩,
    ⟨.keydig, 0x0000000A, 0xFFFFFFFF⟩,
    ⟨.eadd2, 0x00020010, 0xFFFFFFFF⟩,
    ⟨.eadd3, 0x00030010, 0xFFFFFFFF⟩,
    ⟨.eadd4, 0x00040010, 0xFFFFFFFF⟩,
    ⟨.eadd5, 0x00050010, 0xFFFFFFFF⟩,
    ⟨.erotr, 0x00000011, 0xFFFFE0FF⟩,
    ⟨.erotrx, 0x00000012, 0xFFFFE0FF⟩,
    ⟨.eshr, 0x00000013, 0xFFFFE0FF⟩ ]

/-- Whether the word selects the row (R97). -/
def selectsRow (v : Word) (r : OpRow) : Bool := (v &&& r.mask) == r.code

/-- The command of a selected row, its operands taken from the word's fields (R96). -/
def assembleInstr (m : Mnemonic) (v : Word) : Instr :=
  let alg := algOfCode (wordField v 9 8)
  let c := ctxOfCode (wordField v 12 12)
  let nb := wordField v 23 16
  let n := wordField v 12 8
  match m with
  | .nop => .nop
  | .init => .init alg c
  | .compress => .compress c
  | .final => .final c nb
  | .selftest => .selftest alg
  | .clear => .clear
  | .hmacStart => .hmacStart alg
  | .hmacFinal => .hmacFinal nb
  | .keydig => .keydig
  | .eadd2 => .eadd2
  | .eadd3 => .eadd3
  | .eadd4 => .eadd4
  | .eadd5 => .eadd5
  | .erotr => .erotr n
  | .erotrx => .erotrx n
  | .eshr => .eshr n

/-- Why a word is illegal: the three kinds of R99. All complete with ERR = ILLEGAL; the names serve the reader (log 15). -/
inductive Illegal where
  /-- OP is no row's opcode (R99 item 1). -/
  | undefinedOp (op : Nat)
  /-- A defined OP with a nonzero reserved or unused bit (R99 item 2). -/
  | strayBits (op : Nat)
  /-- OP 0x10 with K = 0, 1, 6 or 7 (R99 item 3). -/
  | addendCount (k : Nat)
deriving DecidableEq, Repr

/-- The name of the rejection of a word that selects no row (R99). -/
def illegalReason (v : Word) : Illegal :=
  let op := wordField v 7 0
  if opRows.all (fun r => wordField r.code 7 0 != op) then .undefinedOp op
  else if (v &&& 0xFFF8FFFF) == 0x00000010 then .addendCount (wordField v 18 16)
  else .strayBits op

/-- Decoding, total on every 32-bit word (R98). -/
def decode (v : Word) : Except Illegal Instr :=
  match opRows.find? (selectsRow v) with
  | some r => .ok (assembleInstr r.name v)
  | none => .error (illegalReason v)

/-- The word of a command, from the encoding lines of the command rules and the opcode map (R97, R140 to R148, R252 to R254, R122 to R128). -/
def encode (i : Instr) : Word :=
  let alg (a : Alg) : Word := BitVec.ofNat 32 (algCode a) <<< 8
  let ctx (c : CtxId) : Word := BitVec.ofNat 32 (ctxCode c) <<< 12
  let nbField (nb : Nat) : Word := BitVec.ofNat 32 nb <<< 16
  let nField (n : Nat) : Word := BitVec.ofNat 32 n <<< 8
  match i with
  | .nop => 0x00000000
  | .init a c => 0x00000001 ||| alg a ||| ctx c
  | .compress c => 0x00000002 ||| ctx c
  | .final c nb => 0x00000003 ||| ctx c ||| nbField nb
  | .selftest a => 0x00000004 ||| alg a
  | .clear => 0x00000005
  | .hmacStart a => 0x00000008 ||| alg a
  | .hmacFinal nb => 0x00000009 ||| nbField nb
  | .keydig => 0x0000000A
  | .eadd2 => 0x00020010
  | .eadd3 => 0x00030010
  | .eadd4 => 0x00040010
  | .eadd5 => 0x00050010
  | .erotr n => 0x00000011 ||| nField n
  | .erotrx n => 0x00000012 ||| nField n
  | .eshr n => 0x00000013 ||| nField n

/-- The host's view of the decoder: the command read from the word whose low `nbits` bits are those of `w` and whose other bits are 0. Every command is one 32-bit word (R90). -/
def decodeTableWord (nbits w : Nat) : Option Instr := (decode (BitVec.ofNat 32 (w % 2 ^ nbits))).toOption

end Sys2Proof
end

