-- ==== Sys2Proof/Machine/Flags.lean ====
section
/-! DEFINITION. The register views of packed fields: STATUS (R24), CTXc_INFO (R31), CTRL (R36), KEYLEN (R37); the write to STATUS; the interrupt (R280). HCC has no other flags (R52). -/

namespace Sys2Proof.Machine

/-- The ERR code's number (R27, R270). -/
def errNumber (e : ErrCode) : Nat :=
  match e with
  | .none => 0
  | .illegal => 1
  | .state => 2
  | .operand => 3

/-- The STATE field's number (R32). -/
def ctxStateNumber (x : CtxState) : Nat :=
  match x with
  | .idle => 0
  | .active => 1
  | .final => 2

/-- STATUS as read; reserved bits are 0 (R24). -/
def statusWord (s : State) : Word :=
  BitVec.ofNat 32 (s.busy.toNat + s.status.done.toNat * 2 ^ 1 + errNumber s.status.err * 2 ^ 4
    + s.status.werr.toNat * 2 ^ 8 + s.status.cerr.toNat * 2 ^ 9 + s.status.stpass.toNat * 2 ^ 10
    + algCode s.status.dalg * 2 ^ 12 + s.status.dlen.toNat * 2 ^ 16)

/-- A write to STATUS: DONE, WERR, CERR are cleared by a 1 in bits 1, 8, 9, and nothing else changes (R24). -/
def State.writeStatus (s : State) (v : Word) : State :=
  { s with
    status :=
      { s.status with
        done := s.status.done && !v.getLsbD 1
        werr := s.status.werr && !v.getLsbD 8
        cerr := s.status.cerr && !v.getLsbD 9 } }

/-- CTXc_INFO as read (R31). -/
def ctxInfoWord (x : Context) : Word :=
  BitVec.ofNat 32 (ctxStateNumber x.state + algCode x.alg * 2 ^ 4 + x.hmac.toNat * 2 ^ 8)

/-- CTRL as read (R36). -/
def ctrlWord (s : State) : Word := BitVec.ofNat 32 s.ie.toNat

/-- KEYLEN as read (R37). -/
def keylenWord (s : State) : Word := BitVec.ofNat 32 s.klen.toNat

/-- The interrupt output: IRQ = STATUS.DONE & CTRL.IE (R280). -/
def State.irq (s : State) : Bool := s.status.done && s.ie

/-- The level HCC drives on a line of the host's interrupt controller: IRQ on HCC_IRQ, nothing elsewhere (R280; log 12). -/
def State.irqLine (s : State) (line : Nat) : Bool := line == Config.hccIrq && s.irq

end Sys2Proof.Machine
end

