-- ==== Sys2Proof/Machine/Window.lean ====
section
/-! DEFINITION. The register window: which register stands at an offset (R20), reading and writing it (R60 to R65, R72), and what changes while BUSY = 1 (R320, R321). -/

namespace Sys2Proof.Machine

/-- The registers of the window (R20); `reserved` is every word-aligned offset that no register occupies. -/
inductive Reg where
  | id
  | cmd
  | status
  | ctrl
  | keylen
  | ctxInfo (c : CtxId)
  | len (c : CtxId) (k : Fin 4)
  | h (c : CtxId) (i : Fin 16)
  | msg (i : Fin 32)
  | key (i : Fin 32)
  | digest (i : Fin 16)
  | eaH (i : Fin 5)
  | eaL (i : Fin 5)
  | erH
  | erL
  | reserved
deriving DecidableEq, Repr

/-- The register at a word-aligned byte offset below 0x400 (R20). -/
def regAt (off : Nat) : Reg :=
  if off = 0x000 then .id
  else if off = 0x004 then .cmd
  else if off = 0x008 then .status
  else if off = 0x00C then .ctrl
  else if off = 0x010 then .keylen
  else if off = 0x014 then .ctxInfo .ctx0
  else if off = 0x018 then .ctxInfo .ctx1
  else if off < 0x020 then .reserved
  else if off < 0x030 then .len .ctx0 (Fin.ofNat 4 ((off - 0x020) / 4))
  else if off < 0x040 then .len .ctx1 (Fin.ofNat 4 ((off - 0x030) / 4))
  else if off < 0x080 then .h .ctx0 (Fin.ofNat 16 ((off - 0x040) / 4))
  else if off < 0x0C0 then .h .ctx1 (Fin.ofNat 16 ((off - 0x080) / 4))
  else if off < 0x100 then .reserved
  else if off < 0x180 then .msg (Fin.ofNat 32 ((off - 0x100) / 4))
  else if off < 0x200 then .key (Fin.ofNat 32 ((off - 0x180) / 4))
  else if off < 0x240 then .digest (Fin.ofNat 16 ((off - 0x200) / 4))
  else if off < 0x268 then
    if off % 8 = 0 then .eaH (Fin.ofNat 5 ((off - 0x240) / 8)) else .eaL (Fin.ofNat 5 ((off - 0x240) / 8))
  else if off = 0x268 then .erH
  else if off = 0x26C then .erL
  else .reserved

/-- The word of four buffer bytes from offset a, byte a in bits 7 to 0 (R64). -/
def readLanes (m : Memory) (a : Nat) : Word := le32 (Memory.readList m a 4) 0

/-- Four buffer bytes from offset a set to the word's byte lanes (R64). -/
def writeLanes (m : Memory) (a : Nat) (v : Word) : Memory := Memory.writeList m a (bytesLE v.toNat 4)

/-- The number a register holds; reading changes no register (R60, R64, R65, R72). -/
def readReg (s : State) (r : Reg) : Word :=
  match r with
  | .id => Config.idValue
  | .cmd => s.cmd
  | .status => statusWord s
  | .ctrl => ctrlWord s
  | .keylen => keylenWord s
  | .ctxInfo c => ctxInfoWord (s.ctx c)
  | .len c k => (s.ctx c).len.extractLsb' (32 * k.val) 32
  | .h c i => (s.ctx c).h[i]
  | .msg i => readLanes s.mem (msgBase + 4 * i.val)
  | .key i => readLanes s.mem (keyBase + 4 * i.val)
  | .digest i => readLanes s.mem (digestBase + 4 * i.val)
  | .eaH i => s.ea[i].h
  | .eaL i => s.ea[i].l
  | .erH => s.er.h
  | .erL => s.er.l
  | .reserved => 0

/-- A write to an input register: performed while BUSY = 0, dropped and WERR set while BUSY = 1 (R28, R320). -/
def State.inputWrite (s t : State) : State :=
  if s.busy then { s with status := { s.status with werr := true } } else t

/-- A 32-bit write to a register (R20, R23, R24, R36 to R41, R320). Writes to read-only registers and reserved offsets are ignored. -/
def writeReg (s : State) (r : Reg) (v : Word) : State :=
  match r with
  | .cmd => if s.busy then { s with status := { s.status with cerr := true } } else s.issue v
  | .status => s.writeStatus v
  | .ctrl => { s with ie := v.getLsbD 0 }
  | .keylen => s.inputWrite { s with klen := v.extractLsb' 0 8 }
  | .msg i => s.inputWrite { s with mem := writeLanes s.mem (msgBase + 4 * i.val) v }
  | .key i => s.inputWrite { s with mem := writeLanes s.mem (keyBase + 4 * i.val) v }
  | .eaH i => s.inputWrite { s with ea := s.ea.set i { s.ea[i] with h := v } }
  | .eaL i => s.inputWrite { s with ea := s.ea.set i { s.ea[i] with l := v } }
  | .id => s
  | .ctxInfo _ => s
  | .len _ _ => s
  | .h _ _ => s
  | .digest _ => s
  | .erH => s
  | .erL => s
  | .reserved => s

/-- Whether a command writes, by its rule, a register that R321 names; STATUS, CMD, CTRL and ID always read their value (R321; log 5). -/
def writesReg (i : Instr) (r : Reg) : Bool :=
  match i with
  | .nop => false
  | .selftest _ => false
  | .init _ c =>
    match r with
    | .ctxInfo d => c == d
    | .len d _ => c == d
    | .h d _ => c == d
    | _ => false
  | .compress c =>
    match r with
    | .len d _ => c == d
    | .h d _ => c == d
    | _ => false
  | .final c _ =>
    match r with
    | .ctxInfo d => c == d
    | .len d _ => c == d
    | .h d _ => c == d
    | .digest _ => true
    | _ => false
  | .hmacStart _ =>
    match r with
    | .ctxInfo _ => true
    | .len _ _ => true
    | .h _ _ => true
    | _ => false
  | .hmacFinal _ =>
    match r with
    | .ctxInfo _ => true
    | .len _ _ => true
    | .h _ _ => true
    | .digest _ => true
    | _ => false
  | .keydig =>
    match r with
    | .key _ => true
    | .keylen => true
    | _ => false
  | .clear =>
    match r with
    | .id => false
    | .cmd => false
    | .status => false
    | .ctrl => false
    | .reserved => false
    | _ => true
  | .eadd2 | .eadd3 | .eadd4 | .eadd5 | .erotr _ | .erotrx _ | .eshr _ =>
    match r with
    | .erH => true
    | .erL => true
    | _ => false

/-- Whether a read of the register is unspecified now: a command is pending, it decodes, and its rule writes the register (R321). -/
def readUnspecified (s : State) (r : Reg) : Bool :=
  match s.pending with
  | none => false
  | some v =>
    match decode v with
    | .ok i => writesReg i r
    | .error _ => false

/-- The number of bytes of the window (R60). -/
def windowBytes : Nat := 1024

/-- Whether an access is a 32-bit one at a multiple of 4 (R61). -/
def legalAccess (addr size : Nat) : Bool := size == 4 && addr % 4 == 0

/-- MemRead(addr, size) by the host (R60, R62, R321): the register's value, a free value where it is unspecified, a bus error for an illegal access. -/
def hostRead (s : State) (addr size : Nat) : Host.Outcome State Fault Refusal :=
  if windowBytes ≤ addr then .fault (.outsideWindow addr)
  else if legalAccess addr size = false then .next { s with answer := some (.busError addr) }
  else if readUnspecified s (regAt addr) then
    .next { s with answer := some (.data (Config.busyRead s.freeReads)), freeReads := s.freeReads + 1 }
  else .next { s with answer := some (.data (readReg s (regAt addr))) }

/-- MemWrite(addr, size, v) by the host (R60, R62): the register's write effect, a bus error for an illegal access. -/
def hostWrite (s : State) (addr size : Nat) (v : Word) : Host.Outcome State Fault Refusal :=
  if windowBytes ≤ addr then .fault (.outsideWindow addr)
  else if legalAccess addr size = false then .next { s with answer := some (.busError addr) }
  else .next { writeReg s (regAt addr) v with answer := some .ack }

/-- The byte offset in the window of an address of the host's address space, if the window at HCC_BASE holds it (R60, R70; log 12). -/
def windowOffset (a : Nat) : Option Nat :=
  if Config.hccBase ≤ a ∧ a < Config.hccBase + windowBytes then some (a - Config.hccBase) else none

end Sys2Proof.Machine
end

