-- ==== Sys2Proof/Machine/Turn.lean ====
section
/-! DEFINITION. One turn of each agent: the core's step on the pending command (R310, R311), and one event from outside (R17, R300). -/

namespace Sys2Proof.Machine

/-- The issued word performed in full: its command's meaning, or the ILLEGAL completion (R98, R271, R310). -/
def performWord (v : Word) (s : State) : Host.Outcome State Fault Refusal :=
  match decode v with
  | .ok i => exec i s
  | .error _ => raiseError s .illegal

/-- The core's turn: enabled only while BUSY = 1; while BUSY = 0 HCC does nothing (R292, R310). -/
def coreTurn (s : State) : Host.Outcome State Fault Refusal :=
  match s.pending with
  | none => .next s
  | some v => performWord v s

/-- One event performed (R17, R60, R300, R310). -/
def runEvent (e : Event) (s : State) : Host.Outcome State Fault Refusal :=
  match e with
  | .read addr size => hostRead s addr size
  | .write addr size v => hostWrite s addr size v
  | .core => coreTurn s
  | .reset => .next s.resetPulse

/-- The next turn: the agenda's first event; with nothing to come from outside, the core's, which must come eventually (R312; log 2). -/
def nextTurn (s : State) : Host.Outcome State Fault Refusal :=
  match s.agenda with
  | [] => coreTurn s
  | e :: rest => runEvent e { s with agenda := rest }

/-- The machine with a word just issued and the core's turn next (R310; log 3). -/
def issuedNow (s : State) (v : Word) : State := { s.issue v with agenda := .core :: s.agenda }

end Sys2Proof.Machine
end

