-- ==== Sys2Proof/Machine/Step.lean ====
section
/-! DEFINITION. The machine's one step, and a command word placed where the next step performs it. -/

namespace Sys2Proof.Machine

/-- One step: the next turn of whichever agent moves next (R17, R310). -/
def step (s : State) : Host.Outcome State Fault Refusal := nextTurn s

/-- The state in which the very next step performs the word whose low `nbits` bits are those of `w`: HCC fetches nothing, so the word stands issued, as a host write to CMD leaves it, with the core's turn next (R21, R23, R310; log 3). -/
def State.withFetchWord (s : State) (nbits w : Nat) : State := issuedNow s (BitVec.ofNat 32 (w % 2 ^ nbits))

end Sys2Proof.Machine
end

