-- ==== Sys2Proof/Machine/Program.lean ====
section
/-! DEFINITION. The host program lines of R101 and the pseudo-instructions of R102, as events and commands (log 17). -/

namespace Sys2Proof.Machine

/-- `wr OFF, V` (R101). -/
def wrLine (off : Nat) (v : Word) : Event := .write off 4 v

/-- `rd OFF` (R101). -/
def rdLine (off : Nat) : Event := .read off 4

/-- A command line: the command's word written to CMD (R101). -/
def commandLine (i : Instr) : Event := wrLine 0x004 (encode i)

/-- `wait` where the given number of polls find BUSY = 1 before the core's turn and the next poll finds it 0 (R102). -/
def waitLines (polls : Nat) : List Event := List.replicate polls (rdLine 0x008) ++ [.core, rdLine 0x008]

/-- `EMOV` = EROTR 0 (R102). -/
def emov : Instr := .erotr 0

/-- `ESWAP` = EROTRX 0 (R102). -/
def eswap : Instr := .erotrx 0

/-- `ROTR64 n` for 0 <= n <= 63 (R102). -/
def rotr64Pseudo (n : Nat) : Instr := if n < 32 then .erotr n else .erotrx (n - 32)

/-- The writes that load a byte string at an offset, four bytes each, the last one filled with zeros (R102). -/
def loadLines (off : Nat) (bytes : List Byte) : List Event :=
  (List.range ((bytes.length + 3) / 4)).map fun i => wrLine (off + 4 * i) (le32 (bytes ++ List.replicate 3 0) (4 * i))

/-- `ldmsg bytes` (R102). -/
def ldmsg (bytes : List Byte) : List Event := loadLines 0x100 bytes

/-- `ldkey bytes` (R102). -/
def ldkey (bytes : List Byte) : List Event := loadLines 0x180 bytes ++ [wrLine 0x010 (BitVec.ofNat 32 bytes.length)]

/-- `ldea i, V` (R102). -/
def ldea (i : Nat) (v : BitVec 64) : List Event :=
  [wrLine (0x240 + 8 * i) (pairOf v).h, wrLine (0x244 + 8 * i) (pairOf v).l]

end Sys2Proof.Machine
end

