-- ==== Sys2Proof/Safety.lean ====
section
/-! DEFINITION. The terms of the claims: the invariant of every state a run reaches, who moves next, host discipline, why a command fails, and what a context has absorbed. -/

namespace Sys2Proof.Machine

/-- How many of H's sixteen words an algorithm's state uses (R34). -/
def stateWords (alg : Alg) : Nat :=
  match alg with
  | .sha1 => 5
  | .sha256 => 8
  | .sha512 => 16
  | .rmd160 => 5

/-- A context's invariant: unused words are 0 (R34), an IDLE context is as after reset (R32, R300), LEN counts whole bytes and, while ACTIVE, whole blocks (R33). -/
structure Context.Inv (x : Context) : Prop where
  unused_zero : ∀ i : Fin 16, stateWords x.alg ≤ i.val → x.h[i] = 0
  idle_reset : x.state = .idle → x = Context.reset
  len_bytes : x.len.toNat % 8 = 0
  len_blocks : x.state = .active → x.len.toNat % (8 * blockBytes x.alg) = 0

/-- The invariant of the whole machine: the buffers' memory is canonical and lists buffer bytes only (R38 to R40), the contexts keep theirs, a pending command is the word in CMD with DONE and ERR clear (R26, R27, R310), DLEN and DALG name one digest or none (R29), and DIGEST beyond DLEN is 0 (R40). -/
structure State.Inv (s : State) : Prop where
  mem_wf : Memory.wf s.mem
  mem_buffers : ∀ cell ∈ s.mem, msgBase ≤ cell.1 ∧ cell.1 < bufferEnd
  ctx0_inv : s.ctx0.Inv
  ctx1_inv : s.ctx1.Inv
  pending_cmd : ∀ v, s.pending = some v → s.cmd = v ∧ s.status.done = false ∧ s.status.err = .none
  digest_named : (s.status.dlen = 0 ∧ s.status.dalg = .sha1) ∨ s.status.dlen = BitVec.ofNat 7 (digestBytes s.status.dalg)
  digest_tail : ∀ i, s.status.dlen.toNat ≤ i → i < 64 → Memory.read s.mem (digestBase + i) = 0

/-- A register whose write is dropped with WERR while BUSY = 1 (R28, R320). -/
def isInputReg (r : Reg) : Bool :=
  match r with
  | .keylen => true
  | .msg _ => true
  | .key _ => true
  | .eaH _ => true
  | .eaL _ => true
  | _ => false

/-- The host discipline of R322 item 1 for one event: no write to CMD or to an input register while BUSY = 1. -/
def disciplinedEvent (s : State) (e : Event) : Bool :=
  match e with
  | .write addr _ _ => !(s.busy && (regAt addr == .cmd || isInputReg (regAt addr)))
  | _ => true

/-- The context is ACTIVE and has absorbed exactly the whole blocks of m from the algorithm's IV (R141, R142). -/
structure Context.Absorbed (x : Context) (alg : Alg) (hmac : Bool) (m : List Byte) : Prop where
  active : x.state = .active
  alg_eq : x.alg = alg
  hmac_eq : x.hmac = hmac
  whole : m.length % blockBytes alg = 0
  bits : x.len = BitVec.ofNat 128 (8 * m.length)
  words : x.h = compressBlocks alg (ivOf alg) (wholeBlocks (blockBytes alg) m)

/-- MSG[i] (R38). -/
def msgByte (s : State) (i : Nat) : Byte := Memory.read s.mem (msgBase + i)

/-- DIGEST[i] (R40). -/
def digestByte (s : State) (i : Nat) : Byte := Memory.read s.mem (digestBase + i)

/-- The next step is the core performing the command i (R310). -/
def Performs (s : State) (i : Instr) : Prop :=
  ∃ v, s.pending = some v ∧ decode v = .ok i ∧ (s.agenda = [] ∨ ∃ rest, s.agenda = .core :: rest)

/-- The next step is a reset (R300). -/
def Resets (s : State) : Prop := ∃ rest, s.agenda = .reset :: rest

/-- The next step is a 32-bit host write of v to the byte offset addr (R60). -/
def HostWrites (s : State) (addr : Nat) (v : Word) : Prop := ∃ rest, s.agenda = .write addr 4 v :: rest

/-- An event whose access, if it is one, lies in the window (R60). -/
def eventInWindow (e : Event) : Bool :=
  match e with
  | .read addr _ => decide (addr < windowBytes)
  | .write addr _ _ => decide (addr < windowBytes)
  | .core => true
  | .reset => true

/-- The cause of a STATE error: the context named is not ACTIVE, the pair is no HMAC pair, or there is no digest (R270). -/
def stateErrorCause (i : Instr) (s : State) : Prop :=
  match i with
  | .compress c => (s.ctx c).state ≠ .active
  | .final c _ => (s.ctx c).state ≠ .active
  | .hmacFinal _ =>
    ¬((s.ctx0.state = .active ∧ s.ctx0.hmac = true) ∧ (s.ctx1.state = .active ∧ s.ctx1.hmac = true) ∧
      s.ctx0.alg = s.ctx1.alg)
  | .keydig => s.status.dlen = 0
  | _ => False

/-- The cause of an OPERAND error: NB >= B, or KEYLEN > B (R270). -/
def operandErrorCause (i : Instr) (s : State) : Prop :=
  match i with
  | .final c nb => blockBytes (s.ctx c).alg ≤ nb
  | .hmacFinal nb => blockBytes s.ctx0.alg ≤ nb
  | .hmacStart alg => blockBytes alg < s.klen.toNat
  | _ => False

end Sys2Proof.Machine
end

