-- ==== Sys2Proof/Certificates/Slice0/Obligations.lean ====
section
/-! DEFINITION. The statements for the provers, from the spec's numbered rules. -/

open Sys2Proof Sys2Proof.Machine

/-! ## Encoding -/

/-- Decoding the word of a well-formed command gives the command back, with every operand at every value its field holds (R96, R97, R98). -/
def Obligations.DecodeOfEncode : Prop :=
  ∀ i : Instr, i.wellFormed = true → decode (encode i) = .ok i

/-- Every word that decodes is the encoding of the well-formed command it decodes to: no bit is dropped, and no two words are one command (R97, R98, R99). -/
def Obligations.EncodeOfDecode : Prop :=
  ∀ (v : Word) (i : Instr), decode v = .ok i → i.wellFormed = true ∧ encode i = v

/-- The illegal words are exactly those of R99: an undefined OP, a nonzero bit in a reserved or unused field of a defined OP, or OP 0x10 with K = 0, 1, 6 or 7. -/
def Obligations.IllegalWords : Prop :=
  ∀ v : Word,
    let op := wordField v 7 0
    let k := wordField v 18 16
    (∃ r, decode v = .error r) ↔
      (op = 0x06 ∨ op = 0x07 ∨ (0x0B ≤ op ∧ op ≤ 0x0F) ∨ 0x14 ≤ op) ∨
      ((op = 0x00 ∨ op = 0x05 ∨ op = 0x0A) ∧ v &&& 0xFFFFFF00 ≠ 0) ∨
      (op = 0x01 ∧ v &&& 0xFFFFEC00 ≠ 0) ∨
      (op = 0x02 ∧ v &&& 0xFFFFEF00 ≠ 0) ∨
      (op = 0x03 ∧ v &&& 0xFF00EF00 ≠ 0) ∨
      ((op = 0x04 ∨ op = 0x08) ∧ v &&& 0xFFFFFC00 ≠ 0) ∨
      (op = 0x09 ∧ v &&& 0xFF00FF00 ≠ 0) ∨
      (op = 0x10 ∧ (v &&& 0xFFF8FF00 ≠ 0 ∨ k = 0 ∨ k = 1 ∨ k = 6 ∨ k = 7)) ∨
      ((op = 0x11 ∨ op = 0x12 ∨ op = 0x13) ∧ v &&& 0xFFFFE000 ≠ 0)

/-- A few words written out from the encodings of R91 to R97 decode to the commands they stand for, one or more of each family. -/
def Obligations.WordsOfTheSpecDecode : Prop :=
  decode 0x00001101 = .ok (.init .sha256 .ctx1) ∧ decode 0x00001002 = .ok (.compress .ctx1) ∧
    decode 0x00031003 = .ok (.final .ctx1 3) ∧ decode 0x00000304 = .ok (.selftest .rmd160) ∧
    decode 0x00000208 = .ok (.hmacStart .sha512) ∧ decode 0x001C0009 = .ok (.hmacFinal 28) ∧
    decode 0x0000000A = .ok .keydig ∧ decode 0x00050010 = .ok .eadd5 ∧ decode 0x00001F12 = .ok (.erotrx 31) ∧
    decodeTableWord 32 0x00000103 = none

/-! ## The step -/

/-- When the core moves next with a pending word that decodes to i, the step is exec of i, the agenda moved past the core's turn; a word placed by withFetchWord runs so in the very next step (R310). Which agent moves next is read from the model's agenda (log 1, log 2, log 3). -/
def Obligations.StepRunsTheDecodedCommand : Prop :=
  (∀ s : State, s.agenda = [] → step s = coreTurn s) ∧
    (∀ (s : State) (rest : List Event), s.agenda = .core :: rest → step s = coreTurn { s with agenda := rest }) ∧
    (∀ (s : State) (v : Word) (i : Instr), s.pending = some v → decode v = .ok i → s.agenda = [] → step s = exec i s) ∧
    (∀ (s : State) (v : Word) (i : Instr) (rest : List Event), s.pending = some v → decode v = .ok i →
      s.agenda = .core :: rest → step s = exec i { s with agenda := rest }) ∧
    (∀ (s : State) (w : Nat) (i : Instr), decodeTableWord 32 w = some i →
      step (s.withFetchWord 32 w) = exec i (s.issue (BitVec.ofNat 32 (w % 2 ^ 32))))

/-- The core's turn on a pending word that decodes to ILLEGAL completes with code 1 and changes nothing else (R271). -/
def Obligations.IllegalWordOnlyCompletes : Prop :=
  ∀ (s : State) (v : Word) (r : Illegal), s.pending = some v → decode v = .error r →
    coreTurn s = .next { s with pending := none, status := { s.status with done := true, err := .illegal } }

/-- While BUSY = 0 and nothing comes from outside, HCC does nothing (R292). -/
def Obligations.IdleMachineDoesNothing : Prop :=
  ∀ s : State, s.busy = false → s.agenda = [] → step s = .next s

/-- A step stops only at a host access outside the window, and is never refused: no command, legal or illegal, stops the machine (R60, R270, R312). -/
def Obligations.OnlyAccessesOutsideTheWindowStop : Prop :=
  ∀ s : State,
    (∃ t, step s = .next t) ∨
      ∃ (addr size : Nat) (rest : List Event), windowBytes ≤ addr ∧ step s = .fault (.outsideWindow addr) ∧
        (s.agenda = .read addr size :: rest ∨ ∃ v, s.agenda = .write addr size v :: rest)

/-- Every command, in every state, completes in the core's one step: BUSY is 0, DONE is 1, and CMD, CTRL and the outside world's fields are as before; WERR and CERR too, but for CLEAR (R273, R310, R312). -/
def Obligations.EveryCommandCompletes : Prop :=
  ∀ (i : Instr) (s : State), ∃ t, exec i s = .next t ∧ t.busy = false ∧ t.status.done = true ∧ t.irq = s.ie ∧
    t.cmd = s.cmd ∧ t.ie = s.ie ∧ t.agenda = s.agenda ∧ t.answer = s.answer ∧ t.freeReads = s.freeReads ∧
    (i ≠ .clear → t.status.werr = s.status.werr ∧ t.status.cerr = s.status.cerr)

/-- Whatever host accesses inside the window the agenda holds, a pending command is complete, or abandoned by reset, after at most one step more than the agenda has events (R312). -/
def Obligations.PendingCommandEndsWithinTheAgenda : Prop :=
  ∀ s : State, s.busy = true → (∀ e ∈ s.agenda, eventInWindow e = true) →
    ∃ k ≤ s.agenda.length + 1, ∃ t : State, Host.Core.run Sys2Proof.core k s = .next t ∧ t.busy = false

/-- BUSY is set to 1 only by a host write to CMD with BUSY = 0 and set to 0 only by the core's turn or reset (R25). -/
def Obligations.BusyChangesOnlyAtIssueCompletionReset : Prop :=
  ∀ s t : State, step s = .next t →
    (s.busy = false → t.busy = true → ∃ v, HostWrites s 0x004 v ∧ t.pending = some v) ∧
      (s.busy = true → t.busy = false → s.agenda = [] ∨ (∃ rest, s.agenda = .core :: rest) ∨ Resets s)

/-! ## Errors -/

/-- A command, or an illegal word, that completes with an error has changed only BUSY, DONE and ERR (R272). -/
def Obligations.FailedCommandChangesOnlyStatus : Prop :=
  (∀ (i : Instr) (s t : State), exec i s = .next t → t.status.err ≠ .none →
    t = { s with pending := none, status := { s.status with done := true, err := t.status.err } }) ∧
  ∀ (v : Word) (s t : State), performWord v s = .next t → t.status.err ≠ .none →
    t = { s with pending := none, status := { s.status with done := true, err := t.status.err } }

/-- The code a word completes with, in every state: ILLEGAL exactly if it names no command; else STATE if the command's cause of it holds; else OPERAND if its cause holds; else NONE (R270, R274). -/
def Obligations.ErrorCodesAndPrecedence : Prop :=
  (∀ (i : Instr) (s : State), ∃ t, exec i s = .next t ∧
    (stateErrorCause i s → t.status.err = .state) ∧
      (¬stateErrorCause i s → operandErrorCause i s → t.status.err = .operand) ∧
      (¬stateErrorCause i s → ¬operandErrorCause i s → t.status.err = .none)) ∧
  ∀ (v : Word) (s : State), ∃ t, performWord v s = .next t ∧ (t.status.err = .illegal ↔ ∃ r, decode v = .error r)

/-! ## The digest commands -/

/-- NOP is the word 0; it changes nothing but the completion; OP 0x00 with any other bit set is no command (R140). -/
def Obligations.NopOnlyCompletes : Prop :=
  decode 0x00000000 = .ok .nop ∧
    (∀ s : State, exec .nop s = .next { s with pending := none, status := { s.status with done := true, err := .none } }) ∧
    ∀ v : Word, wordField v 7 0 = 0 → v ≠ 0 → ∃ r, decode v = .error r

/-- INIT gives the context the algorithm's IV, LEN 0, ALG, HMAC 0 and ACTIVE, in every state, and leaves everything else (R141). -/
def Obligations.InitStartsTheContext : Prop :=
  ∀ (alg : Alg) (s : State),
    (∀ c, decode (0x00000001 ||| (BitVec.ofNat 32 (algCode alg) <<< 8) ||| (BitVec.ofNat 32 (ctxCode c) <<< 12)) = .ok (.init alg c)) ∧
    exec (.init alg .ctx0) s = .next
      { s with
        ctx0 := { state := .active, alg := alg, hmac := false, len := 0, h := ivOf alg }
        pending := none, status := { s.status with done := true, err := .none } } ∧
    exec (.init alg .ctx1) s = .next
      { s with
        ctx1 := { state := .active, alg := alg, hmac := false, len := 0, h := ivOf alg }
        pending := none, status := { s.status with done := true, err := .none } }

/-- The initialisation vectors as numbers, unused words 0 (R171, R191, R211, R231), seen through the register window after INIT from any state. -/
def Obligations.InitLoadsThePublishedVectors : Prop :=
  ∀ s : State, ∃ t1 t2 t3 t4 : State,
    exec (.init .sha1 .ctx0) s = .next t1 ∧ exec (.init .sha256 .ctx0) s = .next t2 ∧
    exec (.init .sha512 .ctx0) s = .next t3 ∧ exec (.init .rmd160 .ctx0) s = .next t4 ∧
    (List.range 16).map (fun i => readReg t1 (regAt (0x040 + 4 * i))) =
      [0x67452301, 0xEFCDAB89, 0x98BADCFE, 0x10325476, 0xC3D2E1F0, 0, 0, 0, 0, 0, 0, 0, 0, 0, 0, 0] ∧
    (List.range 16).map (fun i => readReg t2 (regAt (0x040 + 4 * i))) =
      [0x6A09E667, 0xBB67AE85, 0x3C6EF372, 0xA54FF53A, 0x510E527F, 0x9B05688C, 0x1F83D9AB, 0x5BE0CD19,
       0, 0, 0, 0, 0, 0, 0, 0] ∧
    (List.range 16).map (fun i => readReg t3 (regAt (0x040 + 4 * i))) =
      [0x6A09E667, 0xF3BCC908, 0xBB67AE85, 0x84CAA73B, 0x3C6EF372, 0xFE94F82B, 0xA54FF53A, 0x5F1D36F1,
       0x510E527F, 0xADE682D1, 0x9B05688C, 0x2B3E6C1F, 0x1F83D9AB, 0xFB41BD6B, 0x5BE0CD19, 0x137E2179] ∧
    (List.range 16).map (fun i => readReg t4 (regAt (0x040 + 4 * i))) =
      [0x67452301, 0xEFCDAB89, 0x98BADCFE, 0x10325476, 0xC3D2E1F0, 0, 0, 0, 0, 0, 0, 0, 0, 0, 0, 0]

/-- COMPRESS on an ACTIVE context absorbs MSG[0..B) into H and adds 8B to LEN modulo 2^128; on any other context it completes with STATE; nothing else changes (R142). -/
def Obligations.CompressAbsorbsOneBlock : Prop :=
  ∀ (c : CtxId) (s : State),
    decode (0x00000002 ||| (BitVec.ofNat 32 (ctxCode c) <<< 12)) = .ok (.compress c) ∧
    ((s.ctx c).state = .active →
      ∃ t, exec (.compress c) s = .next t ∧
        (t.ctx c).h = compressBlock (s.ctx c).alg (s.ctx c).h
          ((List.range (blockBytes (s.ctx c).alg)).map fun i => msgByte s i) ∧
        (t.ctx c).len.toNat = ((s.ctx c).len.toNat + 8 * blockBytes (s.ctx c).alg) % 2 ^ 128 ∧
        t.ctx c = { s.ctx c with h := (t.ctx c).h, len := (t.ctx c).len } ∧
        (∀ d, d ≠ c → t.ctx d = s.ctx d) ∧
        t = { s with
          ctx0 := t.ctx0, ctx1 := t.ctx1, pending := none, status := { s.status with done := true, err := .none } }) ∧
    ((s.ctx c).state ≠ .active →
      exec (.compress c) s = .next { s with pending := none, status := { s.status with done := true, err := .state } })

/-- COMPRESS depends on no MSG byte beyond its block: two memories that agree on MSG[0..B) give the same context (R142: MSG[64..127] is ignored by the 64-byte-block algorithms). -/
def Obligations.CompressIgnoresBytesBeyondTheBlock : Prop :=
  ∀ (c : CtxId) (s : State) (m : Memory),
    (∀ i < blockBytes (s.ctx c).alg, Memory.read m (msgBase + i) = Memory.read s.mem (msgBase + i)) →
    ∃ t t', exec (.compress c) s = .next t ∧ exec (.compress c) { s with mem := m } = .next t' ∧ t' = { t with mem := m }

/-- FINAL on an ACTIVE context with nb < B: L = LEN + 8nb modulo 2^128, the padded tail MSG[0..nb) absorbed, STATE FINAL, the serialised state in DIGEST[0..D) and zeros above, DLEN and DALG set, every other byte and field as before; otherwise STATE, then OPERAND, and nothing else (R145). -/
def Obligations.FinalWritesTheDigest : Prop :=
  ∀ (c : CtxId) (nb : Nat) (s : State),
    let x := s.ctx c
    let alg := x.alg
    let L := (x.len.toNat + 8 * nb) % 2 ^ 128
    let H := compressBlocks alg x.h (padBlocks alg ((List.range nb).map fun i => msgByte s i) L)
    (nb < 256 → decode (0x00000003 ||| (BitVec.ofNat 32 (ctxCode c) <<< 12) ||| (BitVec.ofNat 32 nb <<< 16)) = .ok (.final c nb)) ∧
    (x.state = .active → nb < blockBytes alg →
      ∃ t, exec (.final c nb) s = .next t ∧
        t.ctx c = { state := .final, alg := alg, hmac := x.hmac, len := BitVec.ofNat 128 L, h := H } ∧
        (∀ d, d ≠ c → t.ctx d = s.ctx d) ∧
        (∀ i < digestBytes alg, digestByte t i = (serialize alg H).getD i 0) ∧
        (∀ i, digestBytes alg ≤ i → i < 64 → digestByte t i = 0) ∧
        (∀ a, ¬(digestBase ≤ a ∧ a < digestBase + 64) → Memory.read t.mem a = Memory.read s.mem a) ∧
        t = { s with
          ctx0 := t.ctx0, ctx1 := t.ctx1, mem := t.mem, pending := none
          status := { s.status with done := true, err := .none, dlen := BitVec.ofNat 7 (digestBytes alg), dalg := alg } }) ∧
    (x.state ≠ .active →
      exec (.final c nb) s = .next { s with pending := none, status := { s.status with done := true, err := .state } }) ∧
    (x.state = .active → blockBytes alg ≤ nb →
      exec (.final c nb) s = .next { s with pending := none, status := { s.status with done := true, err := .operand } })

/-- SELFTEST completes with STPASS = 1 for every algorithm in every state, and changes nothing else: the digest of "abc" is REF(alg) of each algorithm. That STPASS is always 1 is the spec's own inference in R147 ("On hardware that follows this spec, STPASS is always set to 1 [derived: from rule R155 and the REF values, checked by tools/ref_model.py]"); that the model computes the digest instead of setting STPASS is the model's choice (log 16, DEDUCED). -/
def Obligations.SelftestPasses : Prop :=
  (digestOf .sha1 [0x61, 0x62, 0x63] = bytesBE 0xa9993e364706816aba3e25717850c26c9cd0d89d 20 ∧
    digestOf .sha256 [0x61, 0x62, 0x63] = bytesBE 0xba7816bf8f01cfea414140de5dae2223b00361a396177a9cb410ff61f20015ad 32 ∧
    digestOf .sha512 [0x61, 0x62, 0x63] = bytesBE 0xddaf35a193617abacc417349ae20413112e6fa4e89a97ea20a9eeee64b55d39a2192992a274fc1a836ba3c23a3feebbd454d4423643ce80e2a9ac94fa54ca49f 64 ∧
    digestOf .rmd160 [0x61, 0x62, 0x63] = bytesBE 0x8eb208f7e05d987a9b044a8e98c6b087f15a0bfc 20) ∧
  ∀ (alg : Alg) (s : State),
    decode (0x00000004 ||| (BitVec.ofNat 32 (algCode alg) <<< 8)) = .ok (.selftest alg) ∧
    exec (.selftest alg) s = .next
      { s with pending := none, status := { s.status with done := true, err := .none, stpass := true } }

/-- CLEAR leaves what reset leaves but for CTRL and CMD, then completes: STATUS = 0x00000002 and IRQ = CTRL.IE; every register but CMD, CTRL and STATUS reads as after reset (R148). -/
def Obligations.ClearIsResetButCtrlAndCmd : Prop :=
  decode 0x00000005 = .ok .clear ∧
  ∀ s : State, ∃ t, exec .clear s = .next t ∧
    t = { State.reset with
      cmd := s.cmd, ie := s.ie, status := { State.reset.status with done := true }
      agenda := s.agenda, answer := s.answer, freeReads := s.freeReads } ∧
    statusWord t = 0x00000002 ∧ t.irq = s.ie ∧
    ∀ r : Reg, r ≠ .cmd → r ≠ .ctrl → r ≠ .status → readReg t r = readReg State.reset r

/-! ## The HMAC commands -/

/-- K0, IPAD and OPAD of B bytes, 64 or for SHA-512 128: KLEN key bytes, then zeros, and the bytes xored with 0x36 and 0x5C (R251). -/
def Obligations.HmacPadsFromTheKey : Prop :=
  ∀ (alg : Alg) (s : State) (i : Nat),
    let B := if alg = .sha512 then 128 else 64
    blockBytes alg = B ∧ (i < B → s.klen.toNat ≤ B →
    (keyBlock s B).length = B ∧ (innerPad s B).length = B ∧ (outerPad s B).length = B ∧
    (i < s.klen.toNat →
      (keyBlock s B).getD i 0 = Memory.read s.mem (keyBase + i) ∧
      (innerPad s B).getD i 0 = Memory.read s.mem (keyBase + i) ^^^ 0x36 ∧
      (outerPad s B).getD i 0 = Memory.read s.mem (keyBase + i) ^^^ 0x5C) ∧
    (s.klen.toNat ≤ i →
      (keyBlock s B).getD i 0 = 0 ∧ (innerPad s B).getD i 0 = 0x36 ∧ (outerPad s B).getD i 0 = 0x5C))

/-- HMAC_START with KEYLEN <= B starts both contexts from the compressed pad blocks, with LEN = 8B, and changes nothing else; with KEYLEN > B it completes with OPERAND (R252). -/
def Obligations.HmacStartStartsBothContexts : Prop :=
  ∀ (alg : Alg) (s : State),
    let B := blockBytes alg
    decode (0x00000008 ||| (BitVec.ofNat 32 (algCode alg) <<< 8)) = .ok (.hmacStart alg) ∧
    (s.klen.toNat ≤ B →
      exec (.hmacStart alg) s = .next
        { s with
          ctx0 := { state := .active, alg := alg, hmac := true, len := BitVec.ofNat 128 (8 * B),
                    h := compressBlock alg (ivOf alg) (innerPad s B) }
          ctx1 := { state := .active, alg := alg, hmac := true, len := BitVec.ofNat 128 (8 * B),
                    h := compressBlock alg (ivOf alg) (outerPad s B) }
          pending := none, status := { s.status with done := true, err := .none } }) ∧
    (B < s.klen.toNat →
      exec (.hmacStart alg) s = .next { s with pending := none, status := { s.status with done := true, err := .operand } })

/-- HMAC_START depends on no KEY byte from KLEN on: two memories that agree on KEY[0..KLEN) give the same contexts (R39, R252). -/
def Obligations.HmacStartIgnoresBytesBeyondTheKey : Prop :=
  ∀ (alg : Alg) (s : State) (m : Memory),
    (∀ i < s.klen.toNat, Memory.read m (keyBase + i) = Memory.read s.mem (keyBase + i)) →
    ∃ t t', exec (.hmacStart alg) s = .next t ∧ exec (.hmacStart alg) { s with mem := m } = .next t' ∧ t' = { t with mem := m }

/-- HMAC_FINAL on an HMAC pair with nb < B finishes the inner hash in ctx0, then the outer hash in ctx1 with the inner digest as its tail, and writes the outer digest, every other byte and field as before; otherwise STATE, then OPERAND, and nothing else (R253). -/
def Obligations.HmacFinalWritesTheOuterDigest : Prop :=
  ∀ (nb : Nat) (s : State),
    let alg := s.ctx0.alg
    let L0 := (s.ctx0.len.toNat + 8 * nb) % 2 ^ 128
    let H0 := compressBlocks alg s.ctx0.h (padBlocks alg ((List.range nb).map fun i => msgByte s i) L0)
    let L1 := (s.ctx1.len.toNat + 8 * digestBytes alg) % 2 ^ 128
    let H1 := compressBlocks alg s.ctx1.h (padBlocks alg (serialize alg H0) L1)
    let pair := (s.ctx0.state = .active ∧ s.ctx0.hmac = true) ∧ (s.ctx1.state = .active ∧ s.ctx1.hmac = true) ∧
      s.ctx0.alg = s.ctx1.alg
    (nb < 256 → decode (0x00000009 ||| (BitVec.ofNat 32 nb <<< 16)) = .ok (.hmacFinal nb)) ∧
    (pair → nb < blockBytes alg →
      ∃ t, exec (.hmacFinal nb) s = .next t ∧
        t.ctx0 = { state := .final, alg := alg, hmac := true, len := BitVec.ofNat 128 L0, h := H0 } ∧
        t.ctx1 = { state := .final, alg := alg, hmac := true, len := BitVec.ofNat 128 L1, h := H1 } ∧
        (∀ i < digestBytes alg, digestByte t i = (serialize alg H1).getD i 0) ∧
        (∀ i, digestBytes alg ≤ i → i < 64 → digestByte t i = 0) ∧
        (∀ a, ¬(digestBase ≤ a ∧ a < digestBase + 64) → Memory.read t.mem a = Memory.read s.mem a) ∧
        t = { s with
          ctx0 := t.ctx0, ctx1 := t.ctx1, mem := t.mem, pending := none
          status := { s.status with done := true, err := .none, dlen := BitVec.ofNat 7 (digestBytes alg), dalg := alg } }) ∧
    (¬pair →
      exec (.hmacFinal nb) s = .next { s with pending := none, status := { s.status with done := true, err := .state } }) ∧
    (pair → blockBytes alg ≤ nb →
      exec (.hmacFinal nb) s = .next { s with pending := none, status := { s.status with done := true, err := .operand } })

/-- KEYDIG with DLEN /= 0 copies DIGEST[0..DLEN) to KEY, zeros the rest of KEY and sets KEYLEN, every other byte and field as before; with DLEN = 0 it completes with STATE (R254). -/
def Obligations.KeydigMovesTheDigest : Prop :=
  decode 0x0000000A = .ok .keydig ∧
  ∀ s : State,
    (s.status.dlen ≠ 0 →
      ∃ t, exec .keydig s = .next t ∧
        (∀ i < s.status.dlen.toNat, Memory.read t.mem (keyBase + i) = digestByte s i) ∧
        (∀ i, s.status.dlen.toNat ≤ i → i < 128 → Memory.read t.mem (keyBase + i) = 0) ∧
        t.klen.toNat = s.status.dlen.toNat ∧
        (∀ a, ¬(keyBase ≤ a ∧ a < keyBase + 128) → Memory.read t.mem a = Memory.read s.mem a) ∧
        t = { s with
          mem := t.mem, klen := t.klen, pending := none, status := { s.status with done := true, err := .none } }) ∧
    (s.status.dlen = 0 →
      exec .keydig s = .next { s with pending := none, status := { s.status with done := true, err := .state } })

/-! ## The emulation layer -/

/-- The arithmetic law of the layer: LANEADD of two to five pairs is addition modulo 2^64 of their values; the rotations and the shift are ROTR64 and SHR64 (R129). -/
def Obligations.LayerIsNativeArithmetic : Prop :=
  (∀ ps : List Pair, 2 ≤ ps.length → ps.length ≤ 5 →
    (pairVal (laneAdd ps)).toNat = (ps.map fun p => (pairVal p).toNat).sum % 2 ^ 64) ∧
  ∀ (x : Pair) (n : Nat), n < 32 →
    pairVal (pairRotr x n) = rotr64 (pairVal x) n ∧ pairVal (pairRotrx x n) = rotr64 (pairVal x) (32 + n) ∧
      pairVal (pairShr x n) = shr64 (pairVal x) n

/-- EADD2 to EADD5 write to ER the lane addition of the first two to five EA registers, which is their sum modulo 2^64, and change nothing else but the completion (R122 to R125, R129, R130). -/
def Obligations.EaddCommandsAddModulo : Prop :=
  (decode 0x00020010 = .ok .eadd2 ∧ decode 0x00030010 = .ok .eadd3 ∧ decode 0x00040010 = .ok .eadd4 ∧
    decode 0x00050010 = .ok .eadd5) ∧
  ∀ s : State,
    let p2 := laneAdd [s.ea[0], s.ea[1]]
    let p3 := laneAdd [s.ea[0], s.ea[1], s.ea[2]]
    let p4 := laneAdd [s.ea[0], s.ea[1], s.ea[2], s.ea[3]]
    let p5 := laneAdd [s.ea[0], s.ea[1], s.ea[2], s.ea[3], s.ea[4]]
    (p2 = pairOf (pairVal s.ea[0] + pairVal s.ea[1]) ∧
      exec .eadd2 s = .next { s with er := p2, pending := none, status := { s.status with done := true, err := .none } }) ∧
    (p3 = pairOf (pairVal s.ea[0] + pairVal s.ea[1] + pairVal s.ea[2]) ∧
      exec .eadd3 s = .next { s with er := p3, pending := none, status := { s.status with done := true, err := .none } }) ∧
    (p4 = pairOf (pairVal s.ea[0] + pairVal s.ea[1] + pairVal s.ea[2] + pairVal s.ea[3]) ∧
      exec .eadd4 s = .next { s with er := p4, pending := none, status := { s.status with done := true, err := .none } }) ∧
    (p5 = pairOf (pairVal s.ea[0] + pairVal s.ea[1] + pairVal s.ea[2] + pairVal s.ea[3] + pairVal s.ea[4]) ∧
      exec .eadd5 s = .next { s with er := p5, pending := none, status := { s.status with done := true, err := .none } })

/-- EROTR, EROTRX and ESHR write to ER the 64-bit value of EA[0] rotated right by n, by 32 + n, and shifted right by n, for every n of the field, 0 included, and change nothing else but the completion (R126 to R128, R130). -/
def Obligations.RotateAndShiftCommands : Prop :=
  ∀ n, n < 32 →
    (decode (0x00000011 ||| (BitVec.ofNat 32 n <<< 8)) = .ok (.erotr n) ∧
      decode (0x00000012 ||| (BitVec.ofNat 32 n <<< 8)) = .ok (.erotrx n) ∧
      decode (0x00000013 ||| (BitVec.ofNat 32 n <<< 8)) = .ok (.eshr n)) ∧
    ∀ s : State,
      exec (.erotr n) s = .next
        { s with
          er := pairOf ((pairVal s.ea[0]).rotateRight n)
          pending := none, status := { s.status with done := true, err := .none } } ∧
      exec (.erotrx n) s = .next
        { s with
          er := pairOf ((pairVal s.ea[0]).rotateRight (32 + n))
          pending := none, status := { s.status with done := true, err := .none } } ∧
      exec (.eshr n) s = .next
        { s with
          er := pairOf (pairVal s.ea[0] >>> n)
          pending := none, status := { s.status with done := true, err := .none } }

/-! ## The compression functions, padding and whole messages -/

/-- The message schedules: the first sixteen words big-endian from the block, the others by each algorithm's recurrence (R174, R194, R212). -/
def Obligations.ScheduleRecurrences : Prop :=
  ∀ blk : List Byte,
    (let W := sha1Schedule blk;
      W.length = 80 ∧ (∀ t < 16, W.getD t 0 = be32 blk (4 * t)) ∧
      ∀ t, 16 ≤ t → t < 80 →
        W.getD t 0 = rotl32 (W.getD (t - 3) 0 ^^^ W.getD (t - 8) 0 ^^^ W.getD (t - 14) 0 ^^^ W.getD (t - 16) 0) 1) ∧
    (let W := sha256Schedule blk;
      W.length = 64 ∧ (∀ t < 16, W.getD t 0 = be32 blk (4 * t)) ∧
      ∀ t, 16 ≤ t → t < 64 →
        W.getD t 0 =
          sha256SmallS1 (W.getD (t - 2) 0) + W.getD (t - 7) 0 + sha256SmallS0 (W.getD (t - 15) 0) + W.getD (t - 16) 0) ∧
    (let W := sha512Schedule blk;
      W.length = 80 ∧ (∀ t < 16, W.getD t ⟨0, 0⟩ = ⟨be32 blk (8 * t), be32 blk (8 * t + 4)⟩) ∧
      ∀ t, 16 ≤ t → t < 80 →
        W.getD t ⟨0, 0⟩ = laneAdd [sha512SmallS1 (W.getD (t - 2) ⟨0, 0⟩), W.getD (t - 7) ⟨0, 0⟩,
          sha512SmallS0 (W.getD (t - 15) ⟨0, 0⟩), W.getD (t - 16) ⟨0, 0⟩])

/-- COMPRESS_SHA512 through the emulation layer equals its computation on native 64-bit words, for every state and block (R217). -/
def Obligations.Sha512EqualsNative : Prop :=
  ∀ (H : Vector Word 16) (blk : List Byte), compressSha512 H blk = compressNative512 H blk

/-- COMPRESS_RMD160 as its rule writes it: one loop that runs a left and a right step for each j on two register sets that start alike, then the merge; H[5..15] unchanged. The order in which the two lines' steps are interleaved does not matter (R236, R237, R238). -/
def Obligations.Rmd160LinesMerge : Prop :=
  ∀ (H : Vector Word 16) (blk : List Byte),
    let X := fun j => le32 blk (4 * j)
    let start : Regs5 := ⟨H[0], H[1], H[2], H[3], H[4]⟩
    let lines := (List.range 80).foldl
      (fun (p : Regs5 × Regs5) j =>
        (rmdStep j (rmdK1 (j / 16)) (X (rmdR1.getD j 0)) (rmdS1.getD j 0) p.1,
         rmdStep (79 - j) (rmdK2 (j / 16)) (X (rmdR2.getD j 0)) (rmdS2.getD j 0) p.2))
      (start, start)
    (compressRmd160 H blk).toList =
      [H[1] + lines.1.c + lines.2.d, H[2] + lines.1.d + lines.2.e, H[3] + lines.1.e + lines.2.a,
       H[4] + lines.1.a + lines.2.b, H[0] + lines.1.b + lines.2.c] ++ H.toList.drop 5

/-- Words of H beyond the algorithm's state words are returned unchanged by every compression (R153). -/
def Obligations.CompressionKeepsUnusedWords : Prop :=
  ∀ (alg : Alg) (H : Vector Word 16) (blk : List Byte) (i : Fin 16), stateWords alg ≤ i.val →
    (compressBlock alg H blk)[i] = H[i]

/-- PAD of a tail shorter than a block: the tail, 0x80, the fewest zero bytes that leave room for F bytes in a whole number of blocks, and the length field in the algorithm's byte order, split into blocks of B bytes (R150). -/
def Obligations.PaddingContent : Prop :=
  ∀ (alg : Alg) (tail : List Byte) (L : Nat), tail.length < blockBytes alg →
    ∃ z, (tail.length + 1 + z + lengthBytes alg) % blockBytes alg = 0 ∧
      (∀ j < z, (tail.length + 1 + j + lengthBytes alg) % blockBytes alg ≠ 0) ∧
      (padBlocks alg tail L).flatten = tail ++ [0x80] ++ List.replicate z 0 ++
        (match alg with
          | .sha1 => bytesBE (L % 2 ^ 64) 8
          | .sha256 => bytesBE (L % 2 ^ 64) 8
          | .sha512 => bytesBE (L % 2 ^ 128) 16
          | .rmd160 => bytesLE (L % 2 ^ 64) 8) ∧
      ∀ blk ∈ padBlocks alg tail L, blk.length = blockBytes alg

/-- PAD returns one block when nb + 1 + F <= B and two otherwise, each of B bytes: one for nb <= 55 where B = 64 and for nb <= 111 where B = 128; a second block is zeros and the length field (R151). -/
def Obligations.PaddingBlockCount : Prop :=
  ∀ (alg : Alg) (tail : List Byte) (L : Nat), tail.length < blockBytes alg →
    (padBlocks alg tail L).length = (if tail.length + 1 + lengthBytes alg ≤ blockBytes alg then 1 else 2) ∧
    (∀ blk ∈ padBlocks alg tail L, blk.length = blockBytes alg) ∧
    ((padBlocks alg tail L).length = 1 ↔ tail.length ≤ (if alg = .sha512 then 111 else 55)) ∧
    ∀ blk, (padBlocks alg tail L)[1]? = some blk →
      blk = List.replicate (blockBytes alg - lengthBytes alg) 0 ++ lengthField alg L

/-- Every byte string has a digest of D bytes: 20, 32, 64, 20 (R68, R155). The four RIPEMD-160 digests that together reach every entry of both lines' tables have their values: "abc", the empty message, the 56 bytes "abcdbcde...nopq" and 55 bytes "a" (R240; V-ABC-4, V-EMPTY-4, V-M448-4 and V-PAD-13 of 95_test_vectors.md, values the spec marks as derived from its rules). -/
def Obligations.DigestHasItsLength : Prop :=
  (∀ m : List Byte, (digestOf .sha1 m).length = 20 ∧ (digestOf .sha256 m).length = 32 ∧
    (digestOf .sha512 m).length = 64 ∧ (digestOf .rmd160 m).length = 20) ∧
  digestOf .rmd160 [0x61, 0x62, 0x63] = bytesBE 0x8eb208f7e05d987a9b044a8e98c6b087f15a0bfc 20 ∧
  digestOf .rmd160 [] = bytesBE 0x9c1185a5c5e9fc54612808977ee8f548b2258d31 20 ∧
  digestOf .rmd160 ((List.range 14).flatMap fun i => (List.range 4).map fun j => BitVec.ofNat 8 (0x61 + i + j)) =
    bytesBE 0x12a053384a9c0c88e405a06c27dcf49ada62eb2b 20 ∧
  digestOf .rmd160 (List.replicate 55 0x61) = bytesBE 0x0d8a8c9063a48576a7c97e9f95253a6e53ff6765 20

/-- Hashing a message of any length: INIT starts a context that has absorbed nothing, COMPRESS absorbs the next block of the message, and FINAL writes digest(alg, m) of everything absorbed and the tail, with LEN, DLEN and DALG to match (R143, R155). -/
def Obligations.CommandsComputeTheDigest : Prop :=
  ∀ (alg : Alg) (c : CtxId) (s : State),
    (∃ t, exec (.init alg c) s = .next t ∧ (t.ctx c).Absorbed alg false []) ∧
    ∀ (hmac : Bool) (m : List Byte), (s.ctx c).Absorbed alg hmac m →
      (∃ t, exec (.compress c) s = .next t ∧ t.status.err = .none ∧
        (t.ctx c).Absorbed alg hmac (m ++ (List.range (blockBytes alg)).map fun i => msgByte s i)) ∧
      ∀ nb < blockBytes alg,
        ∃ t, exec (.final c nb) s = .next t ∧ t.status.err = .none ∧
          (List.range (digestBytes alg)).map (fun i => digestByte t i) =
            digestOf alg (m ++ (List.range nb).map fun i => msgByte s i) ∧
          (t.ctx c).len.toNat = 8 * (m.length + nb) % 2 ^ 128 ∧
          t.status.dlen.toNat = digestBytes alg ∧ t.status.dalg = alg

/-- HMAC: HMAC_START leaves ctx0 having absorbed the inner pad and ctx1 the outer pad, and HMAC_FINAL, with ctx0 having absorbed the inner pad and the data so far, writes digest(OPAD, digest(IPAD, data)) (R250, R255). -/
def Obligations.CommandsComputeHmac : Prop :=
  ∀ (alg : Alg) (s : State),
    (s.klen.toNat ≤ blockBytes alg →
      ∃ t, exec (.hmacStart alg) s = .next t ∧ t.status.err = .none ∧
        t.ctx0.Absorbed alg true (innerPad s (blockBytes alg)) ∧ t.ctx1.Absorbed alg true (outerPad s (blockBytes alg))) ∧
    ∀ (ipad opad data : List Byte) (nb : Nat), s.ctx0.Absorbed alg true (ipad ++ data) → s.ctx1.Absorbed alg true opad →
      nb < blockBytes alg →
      ∃ t, exec (.hmacFinal nb) s = .next t ∧ t.status.err = .none ∧
        (List.range (digestBytes alg)).map (fun i => digestByte t i) =
          digestOf alg (opad ++ digestOf alg (ipad ++ data ++ (List.range nb).map fun i => msgByte s i)) ∧
        t.status.dlen.toNat = digestBytes alg ∧ t.status.dalg = alg

/-! ## Registers, the window and the bus -/

/-- STATUS stands at 0x008, and in every state, BUSY or not, a host read there answers each field at its bits and 0 in the reserved bits; a write of v clears DONE, WERR and CERR where v has a 1 in bits 1, 8, 9 and changes nothing else, whether or not BUSY = 1 (R24). -/
def Obligations.StatusFieldsAndWrite : Prop :=
  ∀ (s : State) (v : Word),
    let w := statusWord s
    w.getLsbD 0 = s.busy ∧ w.getLsbD 1 = s.status.done ∧ wordField w 3 2 = 0 ∧ wordField w 7 4 = errNumber s.status.err ∧
    w.getLsbD 8 = s.status.werr ∧ w.getLsbD 9 = s.status.cerr ∧ w.getLsbD 10 = s.status.stpass ∧ w.getLsbD 11 = false ∧
    wordField w 13 12 = algCode s.status.dalg ∧ wordField w 15 14 = 0 ∧ wordField w 22 16 = s.status.dlen.toNat ∧
    wordField w 31 23 = 0 ∧
    regAt 0x008 = .status ∧ readReg s .status = w ∧ hostRead s 0x008 4 = .next { s with answer := some (.data w) } ∧
    ∃ t, hostWrite s 0x008 4 v = .next t ∧
      t = { s with
        status :=
          { s.status with
            done := if v.getLsbD 1 then false else s.status.done
            werr := if v.getLsbD 8 then false else s.status.werr
            cerr := if v.getLsbD 9 then false else s.status.cerr }
        answer := t.answer }

/-- CTXc_INFO shows STATE, ALG and HMAC at their bits, and 0 in the reserved bits (R31). -/
def Obligations.ContextInfoFields : Prop :=
  ∀ (s : State) (c : CtxId),
    let w := readReg s (.ctxInfo c)
    regAt 0x014 = .ctxInfo .ctx0 ∧ regAt 0x018 = .ctxInfo .ctx1 ∧
    wordField w 1 0 = ctxStateNumber (s.ctx c).state ∧ wordField w 3 2 = 0 ∧ wordField w 5 4 = algCode (s.ctx c).alg ∧
    wordField w 7 6 = 0 ∧ w.getLsbD 8 = (s.ctx c).hmac ∧ wordField w 31 9 = 0

/-- The register map as the host reads it while BUSY = 0: what an aligned 32-bit read answers at every offset of the window but STATUS and the byte buffers, which have statements of their own; an offset that no register occupies reads 0 (R20, R22, R23, R31, R33, R34, R36, R37, R41, R42, R65). -/
def Obligations.RegisterMapReads : Prop :=
  ∀ s : State, s.busy = false →
    let answers := fun (addr : Nat) (w : Word) => hostRead s addr 4 = .next { s with answer := some (.data w) }
    answers 0x000 0x48434331 ∧ answers 0x004 s.cmd ∧ answers 0x00C (if s.ie then 1 else 0) ∧
    answers 0x010 (BitVec.ofNat 32 s.klen.toNat) ∧ answers 0x014 (ctxInfoWord s.ctx0) ∧
    answers 0x018 (ctxInfoWord s.ctx1) ∧ answers 0x01C 0 ∧ answers 0x268 s.er.h ∧ answers 0x26C s.er.l ∧
    (∀ k, k < 4 → answers (0x020 + 4 * k) (s.ctx0.len.extractLsb' (32 * k) 32) ∧
      answers (0x030 + 4 * k) (s.ctx1.len.extractLsb' (32 * k) 32)) ∧
    (∀ i : Fin 16, answers (0x040 + 4 * i.val) s.ctx0.h[i] ∧ answers (0x080 + 4 * i.val) s.ctx1.h[i] ∧
      answers (0x0C0 + 4 * i.val) 0) ∧
    (∀ i : Fin 5, answers (0x240 + 8 * i.val) s.ea[i].h ∧ answers (0x244 + 8 * i.val) s.ea[i].l) ∧
    ∀ k, k < 100 → answers (0x270 + 4 * k) 0

/-- The byte lanes: an idle write of v at 0x100 + 4i or 0x180 + 4i sets byte 4i + j of MSG or KEY to bits 8j+7 to 8j of v for j = 0..3 and leaves every other byte and field; an idle read of MSG, KEY or DIGEST gives the four bytes with byte 4i the least significant (R64). -/
def Obligations.BufferByteLanes : Prop :=
  ∀ (s : State) (v : Word), s.busy = false →
    (∀ i < 32,
      (∃ t, hostWrite s (0x100 + 4 * i) 4 v = .next t ∧
        (∀ j < 4, Memory.read t.mem (0x100 + 4 * i + j) = v.extractLsb' (8 * j) 8) ∧
        (∀ a, ¬(0x100 + 4 * i ≤ a ∧ a < 0x100 + 4 * i + 4) → Memory.read t.mem a = Memory.read s.mem a) ∧
        t = { s with mem := t.mem, answer := t.answer }) ∧
      ∃ t, hostWrite s (0x180 + 4 * i) 4 v = .next t ∧
        (∀ j < 4, Memory.read t.mem (0x180 + 4 * i + j) = v.extractLsb' (8 * j) 8) ∧
        (∀ a, ¬(0x180 + 4 * i ≤ a ∧ a < 0x180 + 4 * i + 4) → Memory.read t.mem a = Memory.read s.mem a) ∧
        t = { s with mem := t.mem, answer := t.answer }) ∧
    ∀ k < 80,
      hostRead s (0x100 + 4 * k) 4 = .next
        { s with
          answer := some (.data (BitVec.ofNat 32
            ((Memory.read s.mem (0x100 + 4 * k)).toNat + (Memory.read s.mem (0x100 + 4 * k + 1)).toNat * 2 ^ 8 +
              (Memory.read s.mem (0x100 + 4 * k + 2)).toNat * 2 ^ 16 + (Memory.read s.mem (0x100 + 4 * k + 3)).toNat * 2 ^ 24))) }

/-- Idle writes to CTRL, KEYLEN and EA: IE is bit 0, KLEN bits 7 to 0, each EA half its own register; the reserved bits read 0; nothing else changes (R36, R37, R41). An idle write to a read-only register or a reserved offset (ID, CTXc_INFO, LENc_k, Hc_i, DIGEST_i, ER_H, ER_L and those no register occupies) is ignored: nothing changes (R20, R22, R62, and the last row of R320: as at any time). -/
def Obligations.ControlAndOperandWrites : Prop :=
  ∀ (s : State) (v : Word), s.busy = false →
    let writes := fun (addr : Nat) (u : State) => ∃ t, hostWrite s addr 4 v = .next t ∧ t = { u with answer := t.answer }
    writes 0x00C { s with ie := v.getLsbD 0 } ∧ writes 0x010 { s with klen := BitVec.ofNat 8 v.toNat } ∧
    (ctrlWord s).toNat < 2 ∧ (keylenWord s).toNat < 256 ∧
    (∀ i : Fin 5,
      writes (0x240 + 8 * i.val) { s with ea := s.ea.set i ⟨v, s.ea[i].l⟩ } ∧
      writes (0x244 + 8 * i.val) { s with ea := s.ea.set i ⟨s.ea[i].h, v⟩ }) ∧
    ∀ addr, addr % 4 = 0 →
      (addr = 0x000 ∨ (0x014 ≤ addr ∧ addr < 0x100) ∨ (0x200 ≤ addr ∧ addr < 0x240) ∨ (0x268 ≤ addr ∧ addr < 0x400)) →
      writes addr s

/-- An access of the window that is not 32 bits wide or not at a multiple of 4 is answered with a bus error and changes no state of HCC (R62). -/
def Obligations.BusErrorChangesNothing : Prop :=
  ∀ (s : State) (addr size : Nat) (v : Word), addr < 1024 → (size ≠ 4 ∨ addr % 4 ≠ 0) →
    hostRead s addr size = .next { s with answer := some (.busError addr) } ∧
    hostWrite s addr size v = .next { s with answer := some (.busError addr) }

/-- A host read changes no register and no buffer: only the answer on the bus and the model's count of unspecified reads (R72). -/
def Obligations.ReadsChangeNothing : Prop :=
  ∀ (s t : State) (addr size : Nat) (rest : List Event), s.agenda = .read addr size :: rest → step s = .next t →
    t = { s with agenda := rest, answer := t.answer, freeReads := t.freeReads }

/-- While BUSY = 1: a write to CMD is dropped and sets CERR; to KEYLEN, MSG, KEY, EA is dropped and sets WERR; to STATUS and CTRL is performed; to any other offset is ignored (R320). -/
def Obligations.WritesWhileBusy : Prop :=
  ∀ (s : State) (addr : Nat) (v : Word), s.busy = true → addr < 1024 → addr % 4 = 0 →
    ∃ t, hostWrite s addr 4 v = .next t ∧ t =
      { (if addr = 0x004 then { s with status := { s.status with cerr := true } }
         else if addr = 0x010 ∨ (0x100 ≤ addr ∧ addr < 0x200) ∨ (0x240 ≤ addr ∧ addr < 0x268) then
          { s with status := { s.status with werr := true } }
         else if addr = 0x008 then
          { s with
            status :=
              { s.status with
                done := s.status.done && !v.getLsbD 1, werr := s.status.werr && !v.getLsbD 8
                cerr := s.status.cerr && !v.getLsbD 9 } }
         else if addr = 0x00C then { s with ie := v.getLsbD 0 }
         else s : State) with answer := t.answer }

/-- A host write of v to CMD with BUSY = 0 issues v: CMD and the pending word are v, BUSY is 1, DONE and ERR are 0, and nothing else changes, whatever the word (R23, R310). -/
def Obligations.CmdWriteIssues : Prop :=
  ∀ (s : State) (v : Word), s.busy = false →
    ∃ t, hostWrite s 0x004 4 v = .next t ∧ t.busy = true ∧
      t = { s with
        cmd := v, pending := some v, status := { s.status with done := false, err := .none }, answer := t.answer }

/-- While a command stays pending, no step changes what it reads: MSG, KEY, DIGEST, KEYLEN, EA, the contexts, DLEN, nor the pending word and CMD (R76, R311). -/
def Obligations.InputsStandWhileBusy : Prop :=
  ∀ s t : State, s.busy = true → step s = .next t → t.busy = true →
    t.mem = s.mem ∧ t.klen = s.klen ∧ t.ea = s.ea ∧ t.ctx0 = s.ctx0 ∧ t.ctx1 = s.ctx1 ∧ t.er = s.er ∧
      t.status.dlen = s.status.dlen ∧ t.status.dalg = s.status.dalg ∧ t.status.stpass = s.status.stpass ∧
      t.pending = s.pending ∧ t.cmd = s.cmd

/-- A register that R321 lets the host read while a command is pending has the same value after the command completes, but for STATUS: no command writes a register it is not said to write (R321). -/
def Obligations.SpecifiedReadsAreNotWritten : Prop :=
  ∀ (i : Instr) (s t : State) (r : Reg), exec i s = .next t → r ≠ .status → writesReg i r = false →
    readReg t r = readReg s r

/-- While BUSY = 0 every aligned 32-bit read of the window answers the register's value; while BUSY = 1 so do ID, CMD, STATUS and CTRL and every register of the window when the pending word is illegal (R72, R321). -/
def Obligations.SpecifiedReadsAnswerTheRegister : Prop :=
  ∀ (s : State) (addr : Nat), addr < 1024 → addr % 4 = 0 →
    (s.busy = false ∨ addr ≤ 0x00C ∨ (∃ v r, s.pending = some v ∧ decode v = .error r)) →
    hostRead s addr 4 = .next { s with answer := some (.data (readReg s (regAt addr))) }

/-- While a command is pending, a 32-bit read answers a free value, and changes nothing but the answer and the count of such reads, exactly at the offsets of the registers its rule writes: for the context c of INIT, COMPRESS and FINAL, and for both contexts of HMAC_START and HMAC_FINAL, LENc_k and Hc_i, and CTXc_INFO but for COMPRESS; DIGEST for FINAL and HMAC_FINAL; KEYLEN and KEY for KEYDIG; ER for the emulation commands; all of these with MSG and EA for CLEAR; none for NOP and SELFTEST (R321). The read's value is an opaque constant, so the statement holds whatever it is. -/
def Obligations.UnspecifiedReadsAreExactlyThese : Prop :=
  let lenOrH := fun (c : CtxId) (a : Nat) =>
    (0x020 + 0x10 * ctxCode c ≤ a ∧ a < 0x030 + 0x10 * ctxCode c) ∨ (0x040 + 0x40 * ctxCode c ≤ a ∧ a < 0x080 + 0x40 * ctxCode c)
  let ofContext := fun (c : CtxId) (a : Nat) => lenOrH c a ∨ a = 0x014 + 4 * ctxCode c
  let digestAt := fun (a : Nat) => 0x200 ≤ a ∧ a < 0x240
  let writtenBy := fun (i : Instr) (a : Nat) =>
    match i with
    | .nop | .selftest _ => False
    | .init _ c => ofContext c a
    | .compress c => lenOrH c a
    | .final c _ => ofContext c a ∨ digestAt a
    | .hmacStart _ => ofContext .ctx0 a ∨ ofContext .ctx1 a
    | .hmacFinal _ => ofContext .ctx0 a ∨ ofContext .ctx1 a ∨ digestAt a
    | .keydig => a = 0x010 ∨ (0x180 ≤ a ∧ a < 0x200)
    | .clear => a = 0x010 ∨ ofContext .ctx0 a ∨ ofContext .ctx1 a ∨ (0x100 ≤ a ∧ a < 0x270)
    | .eadd2 | .eadd3 | .eadd4 | .eadd5 | .erotr _ | .erotrx _ | .eshr _ => a = 0x268 ∨ a = 0x26C
  ∀ (s : State) (v : Word) (i : Instr) (addr : Nat), s.pending = some v → decode v = .ok i → addr < 1024 → addr % 4 = 0 →
    (writtenBy i addr → ∃ w, hostRead s addr 4 = .next { s with answer := some (.data w), freeReads := s.freeReads + 1 }) ∧
    (¬writtenBy i addr → hostRead s addr 4 = .next { s with answer := some (.data (readReg s (regAt addr))) })

/-- The interrupt: IRQ is DONE and IE; an issue drops it; after any command completes it is IE; writing 1 to STATUS bit 1 clears it; clearing IE masks it and keeps DONE (R280). -/
def Obligations.InterruptFollowsDoneAndEnable : Prop :=
  ∀ s : State,
    (s.irq = true ↔ s.status.done = true ∧ s.ie = true) ∧
    (∀ v, (s.issue v).irq = false) ∧
    (∀ i t, exec i s = .next t → t.irq = s.ie) ∧
    (∀ v t, hostWrite s 0x008 4 v = .next t → v.getLsbD 1 = true → t.irq = false) ∧
    (∀ t, hostWrite s 0x00C 4 0 = .next t → t.irq = false ∧ t.status.done = s.status.done)

/-! ## Reset, and what the whole machine keeps -/

/-- After reset every register of the window reads 0 but ID, no command is pending, IRQ is 0 and both contexts are IDLE; the reset event gives those values from any state and abandons a pending command (R300). -/
def Obligations.ResetValues : Prop :=
  (∀ k, k < 256 → readReg State.reset (regAt (4 * k)) = if k = 0 then 0x48434331 else 0) ∧
  State.reset.pending = none ∧ State.reset.irq = false ∧ State.reset.ctx0.state = .idle ∧ State.reset.ctx1.state = .idle ∧
  ∀ (s : State) (rest : List Event), s.agenda = .reset :: rest →
    step s = .next { State.reset with agenda := rest, freeReads := s.freeReads }

/-- Reset meets the invariant. -/
def Obligations.ResetMeetsTheInvariant : Prop := State.reset.Inv

/-- Every step keeps the invariant: the buffers' memory stays canonical and inside the buffers, unused H words stay 0, an IDLE context is as after reset, LEN counts whole bytes and whole blocks while ACTIVE, a pending command is the word in CMD with DONE and ERR clear, DLEN and DALG name one digest or none, and DIGEST beyond DLEN is 0 (R26, R27, R29, R32 to R34, R40, R310). -/
def Obligations.StepKeepsTheInvariant : Prop :=
  ∀ s t : State, s.Inv → step s = .next t → t.Inv

/-- STPASS changes only at SELFTEST, DLEN, DALG and the DIGEST bytes only at FINAL and HMAC_FINAL; besides them only CLEAR and reset, which set them to 0 (R29, R40). -/
def Obligations.DigestAndSelftestWriters : Prop :=
  ∀ s t : State, step s = .next t →
    (t.status.stpass ≠ s.status.stpass →
      (∃ alg, Performs s (.selftest alg)) ∨ ((Performs s .clear ∨ Resets s) ∧ t.status.stpass = false)) ∧
    ((t.status.dlen ≠ s.status.dlen ∨ t.status.dalg ≠ s.status.dalg ∨ ∃ i < 64, digestByte t i ≠ digestByte s i) →
      (∃ c nb, Performs s (.final c nb)) ∨ (∃ nb, Performs s (.hmacFinal nb)) ∨
        ((Performs s .clear ∨ Resets s) ∧ t.status.dlen = 0 ∧ t.status.dalg = .sha1 ∧ ∀ i < 64, digestByte t i = 0))

/-- MSG and EA change only by the host's writes to them, CLEAR and reset; KEY and KEYLEN by those and KEYDIG (R38, R39, R41, R148). -/
def Obligations.InputRegisterWriters : Prop :=
  ∀ s t : State, step s = .next t →
    (∀ i < 128, msgByte t i ≠ msgByte s i →
      (∃ v, HostWrites s (0x100 + 4 * (i / 4)) v) ∨ Performs s .clear ∨ Resets s) ∧
    (∀ i < 128, Memory.read t.mem (keyBase + i) ≠ Memory.read s.mem (keyBase + i) →
      (∃ v, HostWrites s (0x180 + 4 * (i / 4)) v) ∨ Performs s .keydig ∨ Performs s .clear ∨ Resets s) ∧
    (t.klen ≠ s.klen → (∃ v, HostWrites s 0x010 v) ∨ Performs s .keydig ∨ Performs s .clear ∨ Resets s) ∧
    ∀ i : Fin 5,
      (t.ea[i].h ≠ s.ea[i].h → (∃ v, HostWrites s (0x240 + 8 * i.val) v) ∨ Performs s .clear ∨ Resets s) ∧
      (t.ea[i].l ≠ s.ea[i].l → (∃ v, HostWrites s (0x244 + 8 * i.val) v) ∨ Performs s .clear ∨ Resets s)

/-- ER changes only at the seven emulation commands, CLEAR and reset (R42); CTRL.IE only by the host's writes to CTRL and reset, by no command (R36). -/
def Obligations.ResultAndControlWriters : Prop :=
  ∀ s t : State, step s = .next t →
    (t.er ≠ s.er →
      Performs s .eadd2 ∨ Performs s .eadd3 ∨ Performs s .eadd4 ∨ Performs s .eadd5 ∨
        (∃ n, Performs s (.erotr n) ∨ Performs s (.erotrx n) ∨ Performs s (.eshr n)) ∨ Performs s .clear ∨ Resets s) ∧
    (t.ie ≠ s.ie → (∃ v, HostWrites s 0x00C v) ∨ Resets s)

/-- The context life: a context becomes ACTIVE only at its INIT or at HMAC_START, FINAL only at its FINAL or at HMAC_FINAL, IDLE only at CLEAR or reset; and a command on one context changes nothing of the other (R30, R32, R82). -/
def Obligations.ContextLife : Prop :=
  ∀ (s t : State) (c : CtxId), step s = .next t → t.ctx c ≠ s.ctx c →
    ((t.ctx c).state = .active ∧
        ((∃ alg, Performs s (.init alg c) ∧ (t.ctx c).alg = alg ∧ (t.ctx c).hmac = false) ∨
          (∃ alg, Performs s (.hmacStart alg) ∧ (t.ctx c).alg = alg ∧ (t.ctx c).hmac = true) ∨
          ((s.ctx c).state = .active ∧ Performs s (.compress c) ∧ (t.ctx c).alg = (s.ctx c).alg ∧
            (t.ctx c).hmac = (s.ctx c).hmac))) ∨
      ((t.ctx c).state = .final ∧ (s.ctx c).state = .active ∧ (t.ctx c).alg = (s.ctx c).alg ∧
        (t.ctx c).hmac = (s.ctx c).hmac ∧ ((∃ nb, Performs s (.final c nb)) ∨ ∃ nb, Performs s (.hmacFinal nb))) ∨
      ((t.ctx c).state = .idle ∧ (Performs s .clear ∨ Resets s))

/-- A host that writes neither CMD nor an input register while BUSY = 1 never sets WERR or CERR (R28, R322 item 1). -/
def Obligations.DisciplinedHostSetsNoStickyBit : Prop :=
  ∀ (s t : State) (e : Event) (rest : List Event), s.agenda = e :: rest → disciplinedEvent s e = true → step s = .next t →
    (t.status.werr = true → s.status.werr = true) ∧ (t.status.cerr = true → s.status.cerr = true)
end

