-- ==== Sys2Proof/Laws/Digest.lean ====
section
/-! SUPPORT. Sizes: of byte encodings, serialised states, length fields and blocks. -/

namespace Sys2Proof.Machine

@[simp] theorem length_bytesBE (v n : Nat) : (bytesBE v n).length = n := by simp [bytesBE]

@[simp] theorem length_bytesLE (v n : Nat) : (bytesLE v n).length = n := by simp [bytesLE]

/-- Every byte encoding in a run has the same length. -/
theorem length_flatMap_const (l : List Word) (f : Word → List Byte) (k : Nat) (h : ∀ w, (f w).length = k) :
    (l.flatMap f).length = l.length * k := by
  induction l with
  | nil => simp
  | cons a l ih => rw [List.flatMap_cons, List.length_append, ih, h, List.length_cons, Nat.succ_mul, Nat.add_comm]

/-- SERIALIZE gives D bytes (R68). -/
@[simp] theorem length_serialize (alg : Alg) (H : Vector Word 16) : (serialize alg H).length = digestBytes alg := by
  cases alg <;> simp [serialize, digestBytes, length_flatMap_const _ _ 4]

/-- The length field has F bytes (R150). -/
@[simp] theorem length_lengthField (alg : Alg) (L : Nat) : (lengthField alg L).length = lengthBytes alg := by
  cases alg <;> simp [lengthField, lengthBytes]

/-- A block size is positive. -/
theorem blockBytes_pos (alg : Alg) : 0 < blockBytes alg := by cases alg <;> decide

/-- A digest fits DIGEST's 64 bytes and is not empty (R7, R40). -/
theorem digestBytes_le (alg : Alg) : 0 < digestBytes alg ∧ digestBytes alg ≤ 64 := by cases alg <;> decide

/-- DLEN's seven bits hold every digest size (R24). -/
theorem dlen_toNat (alg : Alg) : (BitVec.ofNat 7 (digestBytes alg)).toNat = digestBytes alg := by cases alg <;> rfl

@[simp] theorem compressBlocks_nil (alg : Alg) (H : Vector Word 16) : compressBlocks alg H [] = H := rfl

@[simp] theorem compressBlocks_cons (alg : Alg) (H : Vector Word 16) (b : List Byte) (bs : List (List Byte)) :
    compressBlocks alg H (b :: bs) = compressBlocks alg (compressBlock alg H b) bs := rfl

theorem compressBlocks_append (alg : Alg) (H : Vector Word 16) (bs cs : List (List Byte)) :
    compressBlocks alg H (bs ++ cs) = compressBlocks alg (compressBlocks alg H bs) cs := by
  simp [compressBlocks, List.foldl_append]

@[simp] theorem length_wholeBlocks (B : Nat) (p : List Byte) : (wholeBlocks B p).length = p.length / B := by
  simp [wholeBlocks]

/-- What follows a whole number of blocks adds its own blocks at the end. -/
theorem wholeBlocks_append (B : Nat) (hB : 0 < B) (p q : List Byte) (hp : p.length % B = 0) :
    wholeBlocks B (p ++ q) = wholeBlocks B p ++ wholeBlocks B q := by
  obtain ⟨k, hk⟩ := Nat.dvd_of_mod_eq_zero hp
  have hlen : (p ++ q).length / B = p.length / B + q.length / B := by
    rw [List.length_append, hk, Nat.mul_add_div hB, Nat.mul_div_cancel_left k hB]
  unfold wholeBlocks
  rw [hlen, List.range_add, List.map_append, List.map_map]
  congr 1
  · refine List.map_congr_left fun i hi => ?_
    have hi' : i < k := by
      rw [hk, Nat.mul_div_cancel_left k hB] at hi
      simpa using hi
    have hle : i * B + B ≤ p.length := by
      rw [hk]; calc i * B + B = (i + 1) * B := by ring
        _ ≤ k * B := Nat.mul_le_mul_right B hi'
        _ = B * k := Nat.mul_comm k B
    rw [List.drop_append_of_le_length (by omega), List.take_append_of_le_length (by rw [List.length_drop]; omega)]
  · refine List.map_congr_left fun i _ => ?_
    have hdiv : p.length / B * B = p.length := Nat.div_mul_cancel (Nat.dvd_of_mod_eq_zero hp)
    simp only [Function.comp]
    rw [Nat.add_mul, hdiv, List.drop_append, List.drop_of_length_le (by omega)]
    simp

/-- One block is its own list of whole blocks. -/
theorem wholeBlocks_single (B : Nat) (hB : 0 < B) (b : List Byte) (h : b.length = B) : wholeBlocks B b = [b] := by
  rw [wholeBlocks, h, Nat.div_self hB]
  simp [List.range_succ, List.take_of_length_le (Nat.le_of_eq h)]

/-- The padded bytes fill whole blocks (R150). -/
theorem padBytes_whole (alg : Alg) (tail : List Byte) (L : Nat) : (padBytes alg tail L).length % blockBytes alg = 0 := by
  simp only [padBytes, List.length_append, List.length_replicate, length_lengthField, List.length_cons, List.length_nil, zeroFill]
  cases alg <;> simp only [blockBytes, lengthBytes] <;> omega

/-- Fewer bytes than a block hold no whole block. -/
theorem wholeBlocks_short (B : Nat) (p : List Byte) (h : p.length < B) : wholeBlocks B p = [] := by
  simp [wholeBlocks, Nat.div_eq_of_lt h]

/-- The length field depends on the bit count modulo 2^128 only (R150). -/
theorem lengthField_mod (alg : Alg) (L : Nat) : lengthField alg (L % 2^128) = lengthField alg L := by
  cases alg <;> simp only [lengthField] <;> congr 1 <;> omega

/-- The digest of whole blocks and a short tail: the blocks absorbed, then the padded tail (R155). -/
theorem digestOf_split (alg : Alg) (m tail : List Byte) (hm : m.length % blockBytes alg = 0) (ht : tail.length < blockBytes alg) :
   digestOf alg (m ++ tail) = serialize alg (compressBlocks alg (compressBlocks alg (ivOf alg) (wholeBlocks (blockBytes alg) m)) (padBlocks alg tail (8 * (m.length + tail.length)))) := by
  have hp := blockBytes_pos alg
  unfold digestOf
  simp only [wholeBlocks_append _ hp m tail hm, wholeBlocks_short _ _ ht, List.append_nil, List.length_append]
  have : (m.length + tail.length) / blockBytes alg * blockBytes alg = m.length := by
    obtain ⟨k, hk⟩ := Nat.dvd_of_mod_eq_zero hm
    rw [hk, Nat.mul_add_div hp, Nat.div_eq_of_lt ht, Nat.add_zero, Nat.mul_comm]
  rw [this]; simp

/-- A list is its own bytes read by index. -/
theorem map_range_getD (l : List Byte) (n : Nat) (h : l.length = n) : ((List.range n).map fun i => l.getD i 0) = l := by
  subst h
  apply List.ext_getElem
  · simp
  · intro i h1 h2; simp [List.getElem?_eq_getElem h2]

end Sys2Proof.Machine
end

