-- ==== Sys2Proof/Laws/Memory.lean ====
section
/-! SUPPORT. The laws of the byte buffers' memory: read after write, and the canonical form kept by every operation. -/

namespace Sys2Proof.Machine

@[simp] theorem Memory.read_nil (a : Nat) : Memory.read [] a = 0 := rfl

theorem Memory.read_cons (b : Nat) (v : Byte) (m : Memory) (a : Nat) :
    Memory.read ((b, v) :: m) a = if b = a then v else Memory.read m a := rfl

/-- A byte that no cell lists reads as 0x00. -/
theorem Memory.read_eq_zero_of_absent (m : Memory) (a : Nat) (h : ∀ c ∈ m, c.1 ≠ a) : Memory.read m a = 0 := by
  induction m with
  | nil => rfl
  | cons c m ih =>
    obtain ⟨b, v⟩ := c
    have hb : b ≠ a := h (b, v) (by simp)
    simp only [Memory.read_cons, if_neg hb]
    exact ih fun c hc => h c (by simp [hc])

/-- Dropping the cells of one address leaves every other address. -/
theorem Memory.read_filter_ne (m : Memory) (a b : Nat) (h : b ≠ a) :
    Memory.read (m.filter fun c => c.1 != a) b = Memory.read m b := by
  induction m with
  | nil => rfl
  | cons c m ih =>
    obtain ⟨x, v⟩ := c
    by_cases hx : x = a
    · subst hx
      simp [Memory.read_cons, ih, Ne.symm h]
    · simp [hx, Memory.read_cons, ih]

theorem Memory.read_insertCell (m : Memory) (a b : Nat) (v : Byte) (h : ∀ c ∈ m, c.1 ≠ a) :
    Memory.read (Memory.insertCell m a v) b = if b = a then v else Memory.read m b := by
  induction m with
  | nil => simp [Memory.insertCell, Memory.read_cons, eq_comm]
  | cons c m ih =>
    obtain ⟨x, w⟩ := c
    have hx : x ≠ a := h (x, w) (by simp)
    have ih := ih fun c hc => h c (by simp [hc])
    unfold Memory.insertCell
    split
    · simp [Memory.read_cons, eq_comm]
    · rw [Memory.read_cons, ih, Memory.read_cons]
      by_cases hb : b = a
      · subst hb; simp [hx]
      · simp [hb]

/-- Read after write: the written byte at its address, every other byte as before. -/
theorem Memory.read_write (m : Memory) (a b : Nat) (v : Byte) :
    Memory.read (Memory.write m a v) b = if b = a then v else Memory.read m b := by
  have habs : ∀ c ∈ m.filter (fun c => c.1 != a), c.1 ≠ a := by simp
  unfold Memory.write
  by_cases hv : v = Memory.unlisted
  · simp only [hv, if_true]
    by_cases hb : b = a
    · subst hb
      simp [Memory.read_eq_zero_of_absent _ _ habs, Memory.unlisted]
    · simp [hb, Memory.read_filter_ne _ _ _ hb]
  · simp only [hv, if_false]
    rw [Memory.read_insertCell _ _ _ _ habs]
    by_cases hb : b = a
    · simp [hb]
    · simp [hb, Memory.read_filter_ne _ _ _ hb]

/-- Read after a run of writes: inside the run its byte, outside it the byte as before. -/
theorem Memory.read_writeList (bs : List Byte) (m : Memory) (a b : Nat) :
    Memory.read (Memory.writeList m a bs) b =
      if a ≤ b ∧ b < a + bs.length then bs.getD (b - a) 0 else Memory.read m b := by
  induction bs generalizing m a with
  | nil => simp [Memory.writeList]
  | cons v bs ih =>
    rw [Memory.writeList, ih, Memory.read_write]
    rcases Nat.lt_trichotomy b a with h | h | h
    · simp [Nat.not_le.mpr h, Nat.ne_of_lt h, show ¬ a + 1 ≤ b by omega]
    · subst h; simp
    · obtain ⟨k, rfl⟩ : ∃ k, b = a + 1 + k := ⟨b - (a + 1), by omega⟩
      have h1 : a + 1 + k - a = k + 1 := by omega
      have h2 : a + 1 + k - (a + 1) = k := by omega
      simp only [h1, h2, List.length_cons, List.getD_cons_succ]
      by_cases hk : k < bs.length
      · simp [show a + 1 + k < a + 1 + bs.length by omega, show a + 1 + k < a + (bs.length + 1) by omega,
          show a ≤ a + 1 + k by omega]
      · simp [show ¬ a + 1 + k < a + 1 + bs.length by omega, show ¬ a + 1 + k < a + (bs.length + 1) by omega,
          show a + 1 + k ≠ a by omega]

@[simp] theorem Memory.length_readList (m : Memory) (a n : Nat) : (Memory.readList m a n).length = n := by
  simp [Memory.readList]

theorem Memory.getD_readList (m : Memory) (a n i : Nat) (h : i < n) :
    (Memory.readList m a n).getD i 0 = Memory.read m (a + i) := by
  simp [Memory.readList, h]

/-- Two memories that agree on a range read the same list from it. -/
theorem Memory.readList_congr (m m' : Memory) (a n : Nat) (h : ∀ i < n, Memory.read m (a + i) = Memory.read m' (a + i)) :
    Memory.readList m a n = Memory.readList m' a n := by
  simp only [Memory.readList]
  exact List.map_congr_left fun i hi => h i (List.mem_range.mp hi)

/-- Where the cells of an inserted memory come from. -/
theorem Memory.mem_insertCell (m : Memory) (a : Nat) (v : Byte) (c : Host.Cell) :
    c ∈ Memory.insertCell m a v ↔ c = (a, v) ∨ c ∈ m := by
  induction m with
  | nil => simp [Memory.insertCell]
  | cons x m ih =>
    obtain ⟨b, w⟩ := x
    unfold Memory.insertCell
    split
    · simp
    · simp [ih, or_left_comm]

theorem Memory.pairwise_insertCell (m : Memory) (a : Nat) (v : Byte)
    (hm : m.Pairwise fun c d => c.1 < d.1) (h : ∀ c ∈ m, c.1 ≠ a) :
    (Memory.insertCell m a v).Pairwise fun c d => c.1 < d.1 := by
  induction m with
  | nil => simp [Memory.insertCell]
  | cons x m ih =>
    obtain ⟨b, w⟩ := x
    obtain ⟨hb, hm'⟩ := List.pairwise_cons.mp hm
    have hne : b ≠ a := h (b, w) (by simp)
    unfold Memory.insertCell
    split
    · rename_i hlt
      refine List.pairwise_cons.mpr ⟨fun c hc => ?_, hm⟩
      rcases List.mem_cons.mp hc with rfl | hc
      · exact hlt
      · exact Nat.lt_trans hlt (hb c hc)
    · refine List.pairwise_cons.mpr ⟨fun c hc => ?_, ih hm' fun c hc => h c (by simp [hc])⟩
      rcases (Memory.mem_insertCell _ _ _ _).mp hc with rfl | hc
      · simp only; omega
      · exact hb c hc

/-- Every cell after a write is the written one or was there. -/
theorem Memory.mem_write {m : Memory} {a : Nat} {v : Byte} {c : Host.Cell} (h : c ∈ Memory.write m a v) :
    c = (a, v) ∨ c ∈ m := by
  unfold Memory.write at h
  simp only at h
  split at h
  · exact .inr (List.mem_filter.mp h).1
  · rcases (Memory.mem_insertCell _ _ _ _).mp h with h | h
    · exact .inl h
    · exact .inr (List.mem_filter.mp h).1

/-- A write keeps the canonical form. -/
theorem Memory.wf_write {m : Memory} (hm : Memory.wf m) (a : Nat) (v : Byte) : Memory.wf (Memory.write m a v) := by
  have hp : (m.filter fun c => c.1 != a).Pairwise fun c d => c.1 < d.1 := hm.1.filter _
  have hz : ∀ c ∈ m.filter (fun c => c.1 != a), c.2 ≠ Memory.unlisted := fun c hc => hm.2 c (List.mem_filter.mp hc).1
  unfold Memory.write
  simp only
  split
  · exact ⟨hp, hz⟩
  · rename_i hv
    refine ⟨Memory.pairwise_insertCell _ _ _ hp (by simp), fun c hc => ?_⟩
    rcases (Memory.mem_insertCell _ _ _ _).mp hc with rfl | hc
    · exact hv
    · exact hz c hc

/-- A run of writes keeps the canonical form. -/
theorem Memory.wf_writeList (bs : List Byte) {m : Memory} (hm : Memory.wf m) (a : Nat) :
    Memory.wf (Memory.writeList m a bs) := by
  induction bs generalizing m a with
  | nil => exact hm
  | cons v bs ih => exact ih (Memory.wf_write hm a v) (a + 1)

/-- Every cell after a run of writes lies in the run or was there. -/
theorem Memory.mem_writeList (bs : List Byte) {m : Memory} {a : Nat} {c : Host.Cell} (h : c ∈ Memory.writeList m a bs) :
    (a ≤ c.1 ∧ c.1 < a + bs.length) ∨ c ∈ m := by
  induction bs generalizing m a with
  | nil => exact .inr h
  | cons v bs ih =>
    rcases ih h with h | h
    · left; simp only [List.length_cons]; omega
    · rcases Memory.mem_write h with rfl | h
      · left; simp
      · exact .inr h

/-- Two canonical memories that read alike are the same list. -/
theorem Memory.ext_of_wf {m m' : Memory} (hm : Memory.wf m) (hm' : Memory.wf m')
    (h : ∀ a, Memory.read m a = Memory.read m' a) : m = m' := by
  induction m generalizing m' with
  | nil =>
    cases m' with
    | nil => rfl
    | cons c m' =>
      obtain ⟨b, v⟩ := c
      have := h b
      simp [Memory.read_cons] at this
      exact absurd this.symm (hm'.2 (b, v) (by simp))
  | cons c m ih =>
    obtain ⟨b, v⟩ := c
    obtain ⟨hb, hp⟩ := List.pairwise_cons.mp hm.1
    have hv : v ≠ 0 := hm.2 (b, v) (by simp)
    have tail_absent : ∀ (n : Memory) (x : Nat), (∀ c ∈ n, x < c.1) → ∀ y ≤ x, Memory.read n y = 0 := fun n x hn y hy =>
      Memory.read_eq_zero_of_absent n y fun c hc => by have := hn c hc; omega
    cases m' with
    | nil =>
      have := h b
      simp [Memory.read_cons] at this
      exact absurd this hv
    | cons c' m' =>
      obtain ⟨b', v'⟩ := c'
      obtain ⟨hb', hp'⟩ := List.pairwise_cons.mp hm'.1
      have hv' : v' ≠ 0 := hm'.2 (b', v') (by simp)
      have hbb : b = b' := by
        rcases Nat.lt_trichotomy b b' with hlt | heq | hlt
        · have := h b
          simp only [Memory.read_cons, if_true, if_neg (show b' ≠ b by omega)] at this
          rw [tail_absent m' b' hb' b (by omega)] at this
          exact absurd this hv
        · exact heq
        · have := h b'
          simp only [Memory.read_cons, if_true, if_neg (show b ≠ b' by omega)] at this
          rw [tail_absent m b hb b' (by omega)] at this
          exact absurd this.symm hv'
      subst hbb
      have hvv : v = v' := by simpa [Memory.read_cons] using h b
      subst hvv
      have : m = m' := ih ⟨hp, fun c hc => hm.2 c (by simp [hc])⟩ ⟨hp', fun c hc => hm'.2 c (by simp [hc])⟩ fun a => by
        by_cases ha : b = a
        · subst ha; rw [tail_absent m b hb b le_rfl, tail_absent m' b hb' b le_rfl]
        · simpa [Memory.read_cons, ha] using h a
      rw [this]

end Sys2Proof.Machine
end

