-- ==== Sys2Proof/Laws/State.lean ====
section
/-! SUPPORT. One lemma per field of State for each named update of it. -/

namespace Sys2Proof.Machine

/-! `State.complete`. -/

@[simp] theorem State.complete_cmd (s : State) (e : ErrCode) : (s.complete e).cmd = s.cmd := rfl
@[simp] theorem State.complete_status (s : State) (e : ErrCode) : (s.complete e).status = { s.status with err := e, done := true } := rfl
@[simp] theorem State.complete_ie (s : State) (e : ErrCode) : (s.complete e).ie = s.ie := rfl
@[simp] theorem State.complete_klen (s : State) (e : ErrCode) : (s.complete e).klen = s.klen := rfl
@[simp] theorem State.complete_ctx0 (s : State) (e : ErrCode) : (s.complete e).ctx0 = s.ctx0 := rfl
@[simp] theorem State.complete_ctx1 (s : State) (e : ErrCode) : (s.complete e).ctx1 = s.ctx1 := rfl
@[simp] theorem State.complete_mem (s : State) (e : ErrCode) : (s.complete e).mem = s.mem := rfl
@[simp] theorem State.complete_ea (s : State) (e : ErrCode) : (s.complete e).ea = s.ea := rfl
@[simp] theorem State.complete_er (s : State) (e : ErrCode) : (s.complete e).er = s.er := rfl
@[simp] theorem State.complete_pending (s : State) (e : ErrCode) : (s.complete e).pending = none := rfl
@[simp] theorem State.complete_agenda (s : State) (e : ErrCode) : (s.complete e).agenda = s.agenda := rfl
@[simp] theorem State.complete_answer (s : State) (e : ErrCode) : (s.complete e).answer = s.answer := rfl
@[simp] theorem State.complete_freeReads (s : State) (e : ErrCode) : (s.complete e).freeReads = s.freeReads := rfl

/-! `State.issue`. -/

@[simp] theorem State.issue_cmd (s : State) (v : Word) : (s.issue v).cmd = v := rfl
@[simp] theorem State.issue_status (s : State) (v : Word) : (s.issue v).status = { s.status with done := false, err := .none } := rfl
@[simp] theorem State.issue_ie (s : State) (v : Word) : (s.issue v).ie = s.ie := rfl
@[simp] theorem State.issue_klen (s : State) (v : Word) : (s.issue v).klen = s.klen := rfl
@[simp] theorem State.issue_ctx0 (s : State) (v : Word) : (s.issue v).ctx0 = s.ctx0 := rfl
@[simp] theorem State.issue_ctx1 (s : State) (v : Word) : (s.issue v).ctx1 = s.ctx1 := rfl
@[simp] theorem State.issue_mem (s : State) (v : Word) : (s.issue v).mem = s.mem := rfl
@[simp] theorem State.issue_ea (s : State) (v : Word) : (s.issue v).ea = s.ea := rfl
@[simp] theorem State.issue_er (s : State) (v : Word) : (s.issue v).er = s.er := rfl
@[simp] theorem State.issue_pending (s : State) (v : Word) : (s.issue v).pending = some v := rfl
@[simp] theorem State.issue_agenda (s : State) (v : Word) : (s.issue v).agenda = s.agenda := rfl
@[simp] theorem State.issue_answer (s : State) (v : Word) : (s.issue v).answer = s.answer := rfl
@[simp] theorem State.issue_freeReads (s : State) (v : Word) : (s.issue v).freeReads = s.freeReads := rfl

/-! `State.setEr`. -/

@[simp] theorem State.setEr_cmd (s : State) (p : Pair) : (s.setEr p).cmd = s.cmd := rfl
@[simp] theorem State.setEr_status (s : State) (p : Pair) : (s.setEr p).status = s.status := rfl
@[simp] theorem State.setEr_ie (s : State) (p : Pair) : (s.setEr p).ie = s.ie := rfl
@[simp] theorem State.setEr_klen (s : State) (p : Pair) : (s.setEr p).klen = s.klen := rfl
@[simp] theorem State.setEr_ctx0 (s : State) (p : Pair) : (s.setEr p).ctx0 = s.ctx0 := rfl
@[simp] theorem State.setEr_ctx1 (s : State) (p : Pair) : (s.setEr p).ctx1 = s.ctx1 := rfl
@[simp] theorem State.setEr_mem (s : State) (p : Pair) : (s.setEr p).mem = s.mem := rfl
@[simp] theorem State.setEr_ea (s : State) (p : Pair) : (s.setEr p).ea = s.ea := rfl
@[simp] theorem State.setEr_er (s : State) (p : Pair) : (s.setEr p).er = p := rfl
@[simp] theorem State.setEr_pending (s : State) (p : Pair) : (s.setEr p).pending = s.pending := rfl
@[simp] theorem State.setEr_agenda (s : State) (p : Pair) : (s.setEr p).agenda = s.agenda := rfl
@[simp] theorem State.setEr_answer (s : State) (p : Pair) : (s.setEr p).answer = s.answer := rfl
@[simp] theorem State.setEr_freeReads (s : State) (p : Pair) : (s.setEr p).freeReads = s.freeReads := rfl

/-! `State.writeStatus`. -/

@[simp] theorem State.writeStatus_cmd (s : State) (v : Word) : (s.writeStatus v).cmd = s.cmd := rfl
@[simp] theorem State.writeStatus_ie (s : State) (v : Word) : (s.writeStatus v).ie = s.ie := rfl
@[simp] theorem State.writeStatus_klen (s : State) (v : Word) : (s.writeStatus v).klen = s.klen := rfl
@[simp] theorem State.writeStatus_ctx0 (s : State) (v : Word) : (s.writeStatus v).ctx0 = s.ctx0 := rfl
@[simp] theorem State.writeStatus_ctx1 (s : State) (v : Word) : (s.writeStatus v).ctx1 = s.ctx1 := rfl
@[simp] theorem State.writeStatus_mem (s : State) (v : Word) : (s.writeStatus v).mem = s.mem := rfl
@[simp] theorem State.writeStatus_ea (s : State) (v : Word) : (s.writeStatus v).ea = s.ea := rfl
@[simp] theorem State.writeStatus_er (s : State) (v : Word) : (s.writeStatus v).er = s.er := rfl
@[simp] theorem State.writeStatus_pending (s : State) (v : Word) : (s.writeStatus v).pending = s.pending := rfl
@[simp] theorem State.writeStatus_agenda (s : State) (v : Word) : (s.writeStatus v).agenda = s.agenda := rfl
@[simp] theorem State.writeStatus_answer (s : State) (v : Word) : (s.writeStatus v).answer = s.answer := rfl
@[simp] theorem State.writeStatus_freeReads (s : State) (v : Word) : (s.writeStatus v).freeReads = s.freeReads := rfl

/-! `State.writeDigest`. -/

@[simp] theorem State.writeDigest_cmd (s : State) (alg : Alg) (H : Vector Word 16) : (s.writeDigest alg H).cmd = s.cmd := rfl
@[simp] theorem State.writeDigest_status (s : State) (alg : Alg) (H : Vector Word 16) : (s.writeDigest alg H).status = { s.status with dlen := BitVec.ofNat 7 (digestBytes alg), dalg := alg } := rfl
@[simp] theorem State.writeDigest_ie (s : State) (alg : Alg) (H : Vector Word 16) : (s.writeDigest alg H).ie = s.ie := rfl
@[simp] theorem State.writeDigest_klen (s : State) (alg : Alg) (H : Vector Word 16) : (s.writeDigest alg H).klen = s.klen := rfl
@[simp] theorem State.writeDigest_ctx0 (s : State) (alg : Alg) (H : Vector Word 16) : (s.writeDigest alg H).ctx0 = s.ctx0 := rfl
@[simp] theorem State.writeDigest_ctx1 (s : State) (alg : Alg) (H : Vector Word 16) : (s.writeDigest alg H).ctx1 = s.ctx1 := rfl
@[simp] theorem State.writeDigest_mem (s : State) (alg : Alg) (H : Vector Word 16) : (s.writeDigest alg H).mem = Memory.writeList s.mem digestBase (serialize alg H ++ List.replicate (64 - digestBytes alg) 0) := rfl
@[simp] theorem State.writeDigest_ea (s : State) (alg : Alg) (H : Vector Word 16) : (s.writeDigest alg H).ea = s.ea := rfl
@[simp] theorem State.writeDigest_er (s : State) (alg : Alg) (H : Vector Word 16) : (s.writeDigest alg H).er = s.er := rfl
@[simp] theorem State.writeDigest_pending (s : State) (alg : Alg) (H : Vector Word 16) : (s.writeDigest alg H).pending = s.pending := rfl
@[simp] theorem State.writeDigest_agenda (s : State) (alg : Alg) (H : Vector Word 16) : (s.writeDigest alg H).agenda = s.agenda := rfl
@[simp] theorem State.writeDigest_answer (s : State) (alg : Alg) (H : Vector Word 16) : (s.writeDigest alg H).answer = s.answer := rfl
@[simp] theorem State.writeDigest_freeReads (s : State) (alg : Alg) (H : Vector Word 16) : (s.writeDigest alg H).freeReads = s.freeReads := rfl

/-! `State.cleared`. -/

@[simp] theorem State.cleared_cmd (s : State) : (s.cleared).cmd = s.cmd := rfl
@[simp] theorem State.cleared_status (s : State) : (s.cleared).status = Status.reset := rfl
@[simp] theorem State.cleared_ie (s : State) : (s.cleared).ie = s.ie := rfl
@[simp] theorem State.cleared_klen (s : State) : (s.cleared).klen = 0 := rfl
@[simp] theorem State.cleared_ctx0 (s : State) : (s.cleared).ctx0 = Context.reset := rfl
@[simp] theorem State.cleared_ctx1 (s : State) : (s.cleared).ctx1 = Context.reset := rfl
@[simp] theorem State.cleared_mem (s : State) : (s.cleared).mem = [] := rfl
@[simp] theorem State.cleared_ea (s : State) : (s.cleared).ea = Vector.replicate 5 ⟨0, 0⟩ := rfl
@[simp] theorem State.cleared_er (s : State) : (s.cleared).er = ⟨0, 0⟩ := rfl
@[simp] theorem State.cleared_pending (s : State) : (s.cleared).pending = s.pending := rfl
@[simp] theorem State.cleared_agenda (s : State) : (s.cleared).agenda = s.agenda := rfl
@[simp] theorem State.cleared_answer (s : State) : (s.cleared).answer = s.answer := rfl
@[simp] theorem State.cleared_freeReads (s : State) : (s.cleared).freeReads = s.freeReads := rfl

/-! `State.resetPulse`. -/

@[simp] theorem State.resetPulse_cmd (s : State) : (s.resetPulse).cmd = 0 := rfl
@[simp] theorem State.resetPulse_status (s : State) : (s.resetPulse).status = Status.reset := rfl
@[simp] theorem State.resetPulse_ie (s : State) : (s.resetPulse).ie = false := rfl
@[simp] theorem State.resetPulse_klen (s : State) : (s.resetPulse).klen = 0 := rfl
@[simp] theorem State.resetPulse_ctx0 (s : State) : (s.resetPulse).ctx0 = Context.reset := rfl
@[simp] theorem State.resetPulse_ctx1 (s : State) : (s.resetPulse).ctx1 = Context.reset := rfl
@[simp] theorem State.resetPulse_mem (s : State) : (s.resetPulse).mem = [] := rfl
@[simp] theorem State.resetPulse_ea (s : State) : (s.resetPulse).ea = Vector.replicate 5 ⟨0, 0⟩ := rfl
@[simp] theorem State.resetPulse_er (s : State) : (s.resetPulse).er = ⟨0, 0⟩ := rfl
@[simp] theorem State.resetPulse_pending (s : State) : (s.resetPulse).pending = none := rfl
@[simp] theorem State.resetPulse_agenda (s : State) : (s.resetPulse).agenda = s.agenda := rfl
@[simp] theorem State.resetPulse_answer (s : State) : (s.resetPulse).answer = none := rfl
@[simp] theorem State.resetPulse_freeReads (s : State) : (s.resetPulse).freeReads = s.freeReads := rfl

@[simp] theorem State.writeStatus_done (s : State) (v : Word) : (s.writeStatus v).status.done = (s.status.done && !v.getLsbD 1) := rfl
@[simp] theorem State.writeStatus_werr (s : State) (v : Word) : (s.writeStatus v).status.werr = (s.status.werr && !v.getLsbD 8) := rfl
@[simp] theorem State.writeStatus_cerr (s : State) (v : Word) : (s.writeStatus v).status.cerr = (s.status.cerr && !v.getLsbD 9) := rfl
@[simp] theorem State.writeStatus_err (s : State) (v : Word) : (s.writeStatus v).status.err = s.status.err := rfl
@[simp] theorem State.writeStatus_stpass (s : State) (v : Word) : (s.writeStatus v).status.stpass = s.status.stpass := rfl
@[simp] theorem State.writeStatus_dalg (s : State) (v : Word) : (s.writeStatus v).status.dalg = s.status.dalg := rfl
@[simp] theorem State.writeStatus_dlen (s : State) (v : Word) : (s.writeStatus v).status.dlen = s.status.dlen := rfl

/-! `State.setCtx`. -/

@[simp] theorem State.setCtx_cmd (s : State) (c : CtxId) (x : Context) : (s.setCtx c x).cmd = s.cmd := by cases c <;> rfl
@[simp] theorem State.setCtx_status (s : State) (c : CtxId) (x : Context) : (s.setCtx c x).status = s.status := by cases c <;> rfl
@[simp] theorem State.setCtx_ie (s : State) (c : CtxId) (x : Context) : (s.setCtx c x).ie = s.ie := by cases c <;> rfl
@[simp] theorem State.setCtx_klen (s : State) (c : CtxId) (x : Context) : (s.setCtx c x).klen = s.klen := by cases c <;> rfl
@[simp] theorem State.setCtx_mem (s : State) (c : CtxId) (x : Context) : (s.setCtx c x).mem = s.mem := by cases c <;> rfl
@[simp] theorem State.setCtx_ea (s : State) (c : CtxId) (x : Context) : (s.setCtx c x).ea = s.ea := by cases c <;> rfl
@[simp] theorem State.setCtx_er (s : State) (c : CtxId) (x : Context) : (s.setCtx c x).er = s.er := by cases c <;> rfl
@[simp] theorem State.setCtx_pending (s : State) (c : CtxId) (x : Context) : (s.setCtx c x).pending = s.pending := by cases c <;> rfl
@[simp] theorem State.setCtx_agenda (s : State) (c : CtxId) (x : Context) : (s.setCtx c x).agenda = s.agenda := by cases c <;> rfl
@[simp] theorem State.setCtx_answer (s : State) (c : CtxId) (x : Context) : (s.setCtx c x).answer = s.answer := by cases c <;> rfl
@[simp] theorem State.setCtx_freeReads (s : State) (c : CtxId) (x : Context) : (s.setCtx c x).freeReads = s.freeReads := by cases c <;> rfl
@[simp] theorem State.setCtx_ctx0_ctx0 (s : State) (x : Context) : (s.setCtx .ctx0 x).ctx0 = x := rfl
@[simp] theorem State.setCtx_ctx0_ctx1 (s : State) (x : Context) : (s.setCtx .ctx0 x).ctx1 = s.ctx1 := rfl
@[simp] theorem State.setCtx_ctx1_ctx0 (s : State) (x : Context) : (s.setCtx .ctx1 x).ctx0 = s.ctx0 := rfl
@[simp] theorem State.setCtx_ctx1_ctx1 (s : State) (x : Context) : (s.setCtx .ctx1 x).ctx1 = x := rfl
@[simp] theorem State.ctx_ctx0 (s : State) : s.ctx .ctx0 = s.ctx0 := rfl
@[simp] theorem State.ctx_ctx1 (s : State) : s.ctx .ctx1 = s.ctx1 := rfl

/-- The context written reads back; the other one is as before. -/
theorem State.ctx_setCtx (s : State) (c d : CtxId) (x : Context) :
    (s.setCtx c x).ctx d = if d = c then x else s.ctx d := by cases c <;> cases d <;> rfl

@[simp] theorem State.ctx_complete (s : State) (e : ErrCode) (c : CtxId) : (s.complete e).ctx c = s.ctx c := by cases c <;> rfl
@[simp] theorem State.ctx_writeDigest (s : State) (alg : Alg) (H : Vector Word 16) (c : CtxId) : (s.writeDigest alg H).ctx c = s.ctx c := by
  cases c <;> rfl

/-! BUSY, and `State.inputWrite`. -/

@[simp] theorem State.busy_complete (s : State) (e : ErrCode) : (s.complete e).busy = false := rfl
@[simp] theorem State.busy_issue (s : State) (v : Word) : (s.issue v).busy = true := rfl
@[simp] theorem State.busy_resetPulse (s : State) : s.resetPulse.busy = false := rfl

theorem State.busy_eq_false_iff (s : State) : s.busy = false ↔ s.pending = none := by
  unfold State.busy
  cases s.pending <;> simp

theorem State.busy_eq_true_iff (s : State) : s.busy = true ↔ ∃ v, s.pending = some v := by
  unfold State.busy
  cases s.pending <;> simp

/-- An input write while BUSY = 1: dropped, WERR set. -/
theorem State.inputWrite_busy {s : State} (h : s.busy = true) (t : State) :
    s.inputWrite t = { s with status := { s.status with werr := true } } := by simp [State.inputWrite, h]

/-- An input write while BUSY = 0: performed. -/
theorem State.inputWrite_idle {s : State} (h : s.busy = false) (t : State) : s.inputWrite t = t := by
  simp [State.inputWrite, h]

/-! Contexts as a command leaves them. -/

@[simp] theorem startedContext_state (alg : Alg) (hmac : Bool) (n : Nat) (H : Vector Word 16) : (startedContext alg hmac n H).state = .active := rfl
@[simp] theorem startedContext_alg (alg : Alg) (hmac : Bool) (n : Nat) (H : Vector Word 16) : (startedContext alg hmac n H).alg = alg := rfl
@[simp] theorem startedContext_hmac (alg : Alg) (hmac : Bool) (n : Nat) (H : Vector Word 16) : (startedContext alg hmac n H).hmac = hmac := rfl
@[simp] theorem startedContext_len (alg : Alg) (hmac : Bool) (n : Nat) (H : Vector Word 16) : (startedContext alg hmac n H).len = BitVec.ofNat 128 n := rfl
@[simp] theorem startedContext_h (alg : Alg) (hmac : Bool) (n : Nat) (H : Vector Word 16) : (startedContext alg hmac n H).h = H := rfl
@[simp] theorem finishContext_state (x : Context) (alg : Alg) (tail : List Byte) : (finishContext x alg tail).state = .final := rfl
@[simp] theorem finishContext_alg (x : Context) (alg : Alg) (tail : List Byte) : (finishContext x alg tail).alg = x.alg := rfl
@[simp] theorem finishContext_hmac (x : Context) (alg : Alg) (tail : List Byte) : (finishContext x alg tail).hmac = x.hmac := rfl
@[simp] theorem finishContext_len (x : Context) (alg : Alg) (tail : List Byte) :
    (finishContext x alg tail).len = x.len + BitVec.ofNat 128 (8 * tail.length) := rfl
@[simp] theorem finishContext_h (x : Context) (alg : Alg) (tail : List Byte) :
    (finishContext x alg tail).h = absorbTail alg x.h tail (x.len + BitVec.ofNat 128 (8 * tail.length)).toNat := rfl

end Sys2Proof.Machine
end

