-- ==== Sys2Proof/Laws/Ops.lean ====
section
/-! SUPPORT. What each shared operation can do: completion, a command error, and every meaning by its cases. -/

namespace Sys2Proof.Machine

@[simp] theorem succeed_eq_next (s t : State) : succeed s = .next t ↔ t = s.complete .none := by
  simp [succeed, eq_comm]

@[simp] theorem raiseError_eq_next (s t : State) (e : ErrCode) : raiseError s e = .next t ↔ t = s.complete e := by
  simp [raiseError, eq_comm]

/-- COMPRESS either reports STATE or absorbs one block (R142). -/
theorem execCompress_cases {c : CtxId} {s t : State} (h : execCompress c s = .next t) :
    ((s.ctx c).state ≠ .active ∧ t = s.complete .state) ∨
      ((s.ctx c).state = .active ∧
        t = (s.setCtx c
          { s.ctx c with
            h := compressBlock (s.ctx c).alg (s.ctx c).h (msgSlice s (blockBytes (s.ctx c).alg))
            len := (s.ctx c).len + BitVec.ofNat 128 (8 * blockBytes (s.ctx c).alg) }).complete .none) := by
  unfold execCompress at h
  by_cases hx : (s.ctx c).state = .active
  · right; simpa [hx] using h
  · left; simpa [hx] using h

/-- FINAL reports STATE, then OPERAND, or finishes the context and writes the digest (R145). -/
theorem execFinal_cases {c : CtxId} {nb : Nat} {s t : State} (h : execFinal c nb s = .next t) :
    ((s.ctx c).state ≠ .active ∧ t = s.complete .state) ∨
      ((s.ctx c).state = .active ∧ blockBytes (s.ctx c).alg ≤ nb ∧ t = s.complete .operand) ∨
      ((s.ctx c).state = .active ∧ nb < blockBytes (s.ctx c).alg ∧
        t = ((s.setCtx c (finishContext (s.ctx c) (s.ctx c).alg (msgSlice s nb))).writeDigest (s.ctx c).alg
          (finishContext (s.ctx c) (s.ctx c).alg (msgSlice s nb)).h).complete .none) := by
  unfold execFinal at h
  by_cases hx : (s.ctx c).state = .active
  · by_cases hn : blockBytes (s.ctx c).alg ≤ nb
    · right; left; exact ⟨hx, hn, by simpa [hx, hn] using h⟩
    · right; right; exact ⟨hx, Nat.lt_of_not_le hn, by simpa [hx, hn] using h⟩
  · left; exact ⟨hx, by simpa [hx] using h⟩

/-- HMAC_START reports OPERAND or starts both contexts (R252). -/
theorem execHmacStart_cases {alg : Alg} {s t : State} (h : execHmacStart alg s = .next t) :
    (blockBytes alg < s.klen.toNat ∧ t = s.complete .operand) ∨
      (s.klen.toNat ≤ blockBytes alg ∧
        t = ((s.setCtx .ctx0 (startedContext alg true (8 * blockBytes alg)
              (compressBlock alg (ivOf alg) (innerPad s (blockBytes alg))))).setCtx .ctx1
            (startedContext alg true (8 * blockBytes alg)
              (compressBlock alg (ivOf alg) (outerPad s (blockBytes alg))))).complete .none) := by
  unfold execHmacStart at h
  by_cases hk : blockBytes alg < s.klen.toNat
  · left; exact ⟨hk, by simpa [hk] using h⟩
  · right; exact ⟨Nat.le_of_not_lt hk, by simpa [hk] using h⟩

/-- HMAC_FINAL reports STATE, then OPERAND, or finishes both contexts and writes the outer digest (R253). -/
theorem execHmacFinal_cases {nb : Nat} {s t : State} (h : execHmacFinal nb s = .next t) :
    (hmacPairReady s = false ∧ t = s.complete .state) ∨
      (hmacPairReady s = true ∧ blockBytes s.ctx0.alg ≤ nb ∧ t = s.complete .operand) ∨
      (hmacPairReady s = true ∧ nb < blockBytes s.ctx0.alg ∧
        ∃ x y : Context, x = finishContext s.ctx0 s.ctx0.alg (msgSlice s nb) ∧
          y = finishContext s.ctx1 s.ctx0.alg (serialize s.ctx0.alg x.h) ∧
          t = (((s.setCtx .ctx0 x).setCtx .ctx1 y).writeDigest s.ctx0.alg y.h).complete .none) := by
  unfold execHmacFinal at h
  by_cases hp : hmacPairReady s = true
  · by_cases hn : blockBytes s.ctx0.alg ≤ nb
    · right; left; exact ⟨hp, hn, by simpa [hp, hn] using h⟩
    · right; right; exact ⟨hp, Nat.lt_of_not_le hn, _, _, rfl, rfl, by simpa [hp, hn] using h⟩
  · have hp : hmacPairReady s = false := by simpa using hp
    left; exact ⟨hp, by simpa [hp] using h⟩

/-- KEYDIG reports STATE or moves the digest into KEY (R254). -/
theorem execKeydig_cases {s t : State} (h : execKeydig s = .next t) :
    (s.status.dlen.toNat = 0 ∧ t = s.complete .state) ∨
      (s.status.dlen.toNat ≠ 0 ∧
        t = ({ s with
          mem := Memory.writeList s.mem keyBase
            (digestSlice s s.status.dlen.toNat ++ List.replicate (128 - s.status.dlen.toNat) 0)
          klen := BitVec.ofNat 8 s.status.dlen.toNat } : State).complete .none) := by
  unfold execKeydig at h
  by_cases hd : s.status.dlen.toNat = 0
  · left; exact ⟨hd, by simpa [hd] using h⟩
  · right; exact ⟨hd, by simpa only [hd, if_false, succeed_eq_next] using h⟩

/-- The three conditions of HMAC_FINAL's STATE check, one by one (R253). -/
theorem hmacPairReady_iff (s : State) :
    hmacPairReady s = true ↔
      (s.ctx0.state = .active ∧ s.ctx0.hmac = true) ∧ (s.ctx1.state = .active ∧ s.ctx1.hmac = true) ∧
        s.ctx0.alg = s.ctx1.alg := by
  simp [hmacPairReady, and_assoc]

/-- DIGEST and every other byte after a digest is written: its D bytes, zeros up to 64, the rest as before (R145, R253). -/
theorem read_writeDigest (s : State) (alg : Alg) (H : Vector Word 16) (a : Nat) :
    Memory.read (s.writeDigest alg H).mem a =
      if digestBase ≤ a ∧ a < digestBase + 64 then
        (if a - digestBase < digestBytes alg then (serialize alg H).getD (a - digestBase) 0 else 0)
      else Memory.read s.mem a := by
  have hD := (digestBytes_le alg).2
  have hlen : (serialize alg H ++ List.replicate (64 - digestBytes alg) (0 : Byte)).length = 64 := by simp; omega
  rw [State.writeDigest_mem, Memory.read_writeList, hlen]
  split
  · split
    · rename_i h
      rw [List.getD_append _ _ _ _ (by simpa using h)]
    · rename_i h
      rw [List.getD_append_right _ _ _ _ (by simpa using h), List.getD_replicate _ (by simp; omega)]
  · rfl

/-- Every way a command can end: an error or NOP, which only complete; or the one effect of each of the others (R122 to R128, R140 to R148, R252 to R254, R272). -/
theorem exec_cases {i : Instr} {s t : State} (h : exec i s = .next t) :
    (∃ e, t = s.complete e) ∨ (∃ alg, i = .selftest alg ∧ t = ({ s with status := { s.status with stpass := t.status.stpass } } : State).complete .none)
    ∨ (i = .clear ∧ t = s.cleared.complete .none)
    ∨ (∃ alg c, i = .init alg c ∧ t = (s.setCtx c (startedContext alg false 0 (ivOf alg))).complete .none)
    ∨ (∃ c, i = .compress c ∧ (s.ctx c).state = .active ∧
        t = (s.setCtx c
          { s.ctx c with
            h := compressBlock (s.ctx c).alg (s.ctx c).h (msgSlice s (blockBytes (s.ctx c).alg))
            len := (s.ctx c).len + BitVec.ofNat 128 (8 * blockBytes (s.ctx c).alg) }).complete .none)
    ∨ (∃ c nb, i = .final c nb ∧ (s.ctx c).state = .active ∧ nb < blockBytes (s.ctx c).alg ∧
        t = ((s.setCtx c (finishContext (s.ctx c) (s.ctx c).alg (msgSlice s nb))).writeDigest (s.ctx c).alg
          (finishContext (s.ctx c) (s.ctx c).alg (msgSlice s nb)).h).complete .none)
    ∨ (∃ alg, i = .hmacStart alg ∧ s.klen.toNat ≤ blockBytes alg ∧
        t = ((s.setCtx .ctx0 (startedContext alg true (8 * blockBytes alg)
              (compressBlock alg (ivOf alg) (innerPad s (blockBytes alg))))).setCtx .ctx1
            (startedContext alg true (8 * blockBytes alg)
              (compressBlock alg (ivOf alg) (outerPad s (blockBytes alg))))).complete .none)
    ∨ (∃ nb, i = .hmacFinal nb ∧ hmacPairReady s = true ∧ nb < blockBytes s.ctx0.alg ∧
        ∃ x y : Context, x = finishContext s.ctx0 s.ctx0.alg (msgSlice s nb) ∧
          y = finishContext s.ctx1 s.ctx0.alg (serialize s.ctx0.alg x.h) ∧
          t = (((s.setCtx .ctx0 x).setCtx .ctx1 y).writeDigest s.ctx0.alg y.h).complete .none)
    ∨ (i = .keydig ∧ s.status.dlen.toNat ≠ 0 ∧
        t = ({ s with
          mem := Memory.writeList s.mem keyBase
            (digestSlice s s.status.dlen.toNat ++ List.replicate (128 - s.status.dlen.toNat) 0)
          klen := BitVec.ofNat 8 s.status.dlen.toNat } : State).complete .none)
    ∨ ((i = .eadd2 ∨ i = .eadd3 ∨ i = .eadd4 ∨ i = .eadd5 ∨ ∃ n, i = .erotr n ∨ i = .erotrx n ∨ i = .eshr n) ∧ ∃ p, t = (s.setEr p).complete .none) := by
  cases i
  case nop => left; simp [exec, execNop] at h; exact ⟨_, h⟩
  case selftest alg => right; left; simp [exec, execSelftest] at h; exact ⟨alg, rfl, by rw [h]; rfl⟩
  case clear => right; right; left; simp [exec, execClear] at h; exact ⟨rfl, h⟩
  case init a c => right; right; right; left; simp [exec, execInit] at h; exact ⟨a, c, rfl, h⟩
  case compress c => 
    rcases execCompress_cases h with ⟨_, h⟩ | ⟨ha, h⟩
    · exact .inl ⟨_, h⟩
    · exact .inr (.inr (.inr (.inr (.inl ⟨c, rfl, ha, h⟩))))
  case final c nb => 
    rcases execFinal_cases h with ⟨_, h⟩ | ⟨_, _, h⟩ | ⟨ha, hb, h⟩
    · exact .inl ⟨_, h⟩
    · exact .inl ⟨_, h⟩
    · exact .inr (.inr (.inr (.inr (.inr (.inl ⟨c, nb, rfl, ha, hb, h⟩)))))
  case hmacStart a => 
    rcases execHmacStart_cases h with ⟨_, h⟩ | ⟨ha, h⟩
    · exact .inl ⟨_, h⟩
    · exact .inr (.inr (.inr (.inr (.inr (.inr (.inl ⟨a, rfl, ha, h⟩))))))
  case hmacFinal nb => 
    rcases execHmacFinal_cases h with ⟨_, h⟩ | ⟨_, _, h⟩ | ⟨ha, hb, h⟩
    · exact .inl ⟨_, h⟩
    · exact .inl ⟨_, h⟩
    · exact .inr (.inr (.inr (.inr (.inr (.inr (.inr (.inl ⟨nb, rfl, ha, hb, h⟩)))))))
  case keydig => 
    rcases execKeydig_cases h with ⟨_, h⟩ | ⟨ha, h⟩
    · exact .inl ⟨_, h⟩
    · exact .inr (.inr (.inr (.inr (.inr (.inr (.inr (.inr (.inl ⟨rfl, ha, h⟩))))))))
  all_goals
    refine .inr (.inr (.inr (.inr (.inr (.inr (.inr (.inr (.inr ⟨by simp, ?_⟩))))))))
    simp [exec, execEadd2, execEadd3, execEadd4, execEadd5, execErotr, execErotrx, execEshr, eaddResult] at h
    exact ⟨_, h⟩

end Sys2Proof.Machine
end

