-- ==== Sys2Proof/Laws/PerInstr.lean ====
section
/-! SUPPORT. Facts about each command as syntax: the family RowSelected says that the encoded word selects its own row of the opcode map (R97). -/

namespace Sys2Proof.Laws.RowSelected

/-- The row's name of a command. -/
def nameOf (i : Instr) : Mnemonic :=
  match i with
  | .nop => .nop
  | .init _ _ => .init
  | .compress _ => .compress
  | .final _ _ => .final
  | .selftest _ => .selftest
  | .clear => .clear
  | .hmacStart _ => .hmacStart
  | .hmacFinal _ => .hmacFinal
  | .keydig => .keydig
  | .eadd2 => .eadd2
  | .eadd3 => .eadd3
  | .eadd4 => .eadd4
  | .eadd5 => .eadd5
  | .erotr _ => .erotr
  | .erotrx _ => .erotrx
  | .eshr _ => .eshr

/-- A well-formed command's word selects the row of its name, and that row only (R97). -/
def Statement (i : Instr) : Prop :=
  i.wellFormed = true → ∀ r ∈ opRows, selectsRow (encode i) r = true ↔ r.name = nameOf i

/-- Whether a word selects exactly the rows of one name. -/
def selectsOnly (v : Word) (m : Mnemonic) : Bool := opRows.all fun r => selectsRow v r == decide (r.name = m)

theorem statement_of_check {i : Instr} (h : i.wellFormed = true → selectsOnly (encode i) (nameOf i) = true) : Statement i := by
  intro hw r hr
  have := List.all_eq_true.mp (h hw) r hr
  simp only [beq_iff_eq] at this
  rw [this, decide_eq_true_eq]

theorem nop : Statement .nop := statement_of_check (by decide)

theorem init (alg : Alg) (c : CtxId) : Statement (.init alg c) :=
  statement_of_check (by cases alg <;> cases c <;> decide)

theorem compress (c : CtxId) : Statement (.compress c) := statement_of_check (by cases c <;> decide)

theorem final (c : CtxId) (nb : Nat) : Statement (.final c nb) :=
  statement_of_check fun h => by
    have hn : nb < 256 := of_decide_eq_true h
    cases c
    · exact (by decide +kernel : ∀ nb < 256, selectsOnly (encode (.final .ctx0 nb)) .final = true) nb hn
    · exact (by decide +kernel : ∀ nb < 256, selectsOnly (encode (.final .ctx1 nb)) .final = true) nb hn

theorem selftest (alg : Alg) : Statement (.selftest alg) := statement_of_check (by cases alg <;> decide)

theorem clear : Statement .clear := statement_of_check (by decide)

theorem hmacStart (alg : Alg) : Statement (.hmacStart alg) := statement_of_check (by cases alg <;> decide)

theorem hmacFinal (nb : Nat) : Statement (.hmacFinal nb) :=
  statement_of_check fun h =>
    (by decide +kernel : ∀ nb < 256, selectsOnly (encode (.hmacFinal nb)) .hmacFinal = true) nb (of_decide_eq_true h)

theorem keydig : Statement .keydig := statement_of_check (by decide)

theorem eadd2 : Statement .eadd2 := statement_of_check (by decide)

theorem eadd3 : Statement .eadd3 := statement_of_check (by decide)

theorem eadd4 : Statement .eadd4 := statement_of_check (by decide)

theorem eadd5 : Statement .eadd5 := statement_of_check (by decide)

theorem erotr (n : Nat) : Statement (.erotr n) :=
  statement_of_check fun h =>
    (by decide +kernel : ∀ n < 32, selectsOnly (encode (.erotr n)) .erotr = true) n (of_decide_eq_true h)

theorem erotrx (n : Nat) : Statement (.erotrx n) :=
  statement_of_check fun h =>
    (by decide +kernel : ∀ n < 32, selectsOnly (encode (.erotrx n)) .erotrx = true) n (of_decide_eq_true h)

theorem eshr (n : Nat) : Statement (.eshr n) :=
  statement_of_check fun h =>
    (by decide +kernel : ∀ n < 32, selectsOnly (encode (.eshr n)) .eshr = true) n (of_decide_eq_true h)

end Sys2Proof.Laws.RowSelected
end

