-- ==== Sys2Proof/Laws/Step.lean ====
section
/-! SUPPORT. What a turn can do: host reads and writes by their cases, the core's turn, and the step. -/

namespace Sys2Proof.Machine

/-- A host read stops outside the window, or answers a bus error, a free value or the register's value; nothing else changes (R62, R72, R321). -/
theorem hostRead_cases {s t : State} {addr size : Nat} (h : hostRead s addr size = .next t) :
    addr < windowBytes ∧
      ((legalAccess addr size = false ∧ t = { s with answer := some (.busError addr) }) ∨
        (legalAccess addr size = true ∧ readUnspecified s (regAt addr) = true ∧
          t = { s with answer := some (.data (Config.busyRead s.freeReads)), freeReads := s.freeReads + 1 }) ∨
        (legalAccess addr size = true ∧ readUnspecified s (regAt addr) = false ∧
          t = { s with answer := some (.data (readReg s (regAt addr))) })) := by
  unfold hostRead at h
  split at h
  · cases h
  · rename_i hw
    refine ⟨Nat.lt_of_not_le hw, ?_⟩
    split at h
    · rename_i hl; left; exact ⟨hl, by simpa [eq_comm] using h⟩
    · rename_i hl
      have hl : legalAccess addr size = true := by simpa using hl
      split at h
      · rename_i hu; right; left; exact ⟨hl, hu, by simpa [eq_comm] using h⟩
      · rename_i hu; right; right; exact ⟨hl, by simpa using hu, by simpa [eq_comm] using h⟩

/-- A host write stops outside the window, or answers a bus error or performs the register's write (R62, R320). -/
theorem hostWrite_cases {s t : State} {addr size : Nat} {v : Word} (h : hostWrite s addr size v = .next t) :
    addr < windowBytes ∧
      ((legalAccess addr size = false ∧ t = { s with answer := some (.busError addr) }) ∨
        (legalAccess addr size = true ∧ t = { writeReg s (regAt addr) v with answer := some .ack })) := by
  unfold hostWrite at h
  split at h
  · cases h
  · rename_i hw
    refine ⟨Nat.lt_of_not_le hw, ?_⟩
    split at h
    · rename_i hl; left; exact ⟨hl, by simpa [eq_comm] using h⟩
    · rename_i hl; right; exact ⟨by simpa using hl, by simpa [eq_comm] using h⟩

/-- The step runs the agenda's first event, or the core's turn when there is none. -/
theorem step_cases {s t : State} (h : step s = .next t) :
    (s.agenda = [] ∧ coreTurn s = .next t) ∨
      ∃ e rest, s.agenda = e :: rest ∧ runEvent e { s with agenda := rest } = .next t := by
  unfold step nextTurn at h
  split at h
  · rename_i ha; exact .inl ⟨ha, h⟩
  · rename_i e rest ha; exact .inr ⟨e, rest, ha, h⟩

/-- The core's turn does nothing while nothing is pending (R292). -/
@[simp] theorem coreTurn_idle {s : State} (h : s.pending = none) : coreTurn s = .next s := by
  simp [coreTurn, h]

/-- The core's turn performs the pending word (R310). -/
theorem coreTurn_pending {s : State} {v : Word} (h : s.pending = some v) : coreTurn s = performWord v s := by
  simp [coreTurn, h]

@[simp] theorem withFetchWord_pending (s : State) (nbits w : Nat) :
    (s.withFetchWord nbits w).pending = some (BitVec.ofNat 32 (w % 2 ^ nbits)) := rfl

@[simp] theorem withFetchWord_agenda (s : State) (nbits w : Nat) : (s.withFetchWord nbits w).agenda = .core :: s.agenda := rfl

/-- Every way a step can go, named by what it does to the state: the core's turn with nothing pending, with a command, with an illegal word; a reset; a read; a write that only answers; a write to a register (R60, R62, R72, R292, R300, R310). -/
theorem step_effects {s t : State} (h : step s = .next t) :
   (s.pending = none ∧ t = { s with agenda := t.agenda } ∧ (s.agenda = [] ∨ ∃ rest, s.agenda = .core :: rest)) ∨
   (∃ v ag i, s.pending = some v ∧ decode v = .ok i ∧ (s.agenda = [] ∨ ∃ rest, s.agenda = .core :: rest) ∧ exec i { s with agenda := ag } = .next t) ∨
   (∃ v ag r, s.pending = some v ∧ decode v = .error r ∧ (s.agenda = [] ∨ ∃ rest, s.agenda = .core :: rest) ∧ t = ({ s with agenda := ag } : State).complete .illegal) ∨
   (∃ rest, s.agenda = .reset :: rest ∧ t = { State.reset with agenda := rest, freeReads := s.freeReads }) ∨
   (∃ addr size rest, s.agenda = .read addr size :: rest ∧ t = { s with agenda := rest, answer := t.answer, freeReads := t.freeReads }) ∨
   (∃ addr size v rest, s.agenda = .write addr size v :: rest ∧ t = { s with agenda := rest, answer := t.answer }) ∨
   (∃ addr v rest, s.agenda = .write addr 4 v :: rest ∧ addr < 1024 ∧ addr % 4 = 0 ∧ t = { writeReg { s with agenda := rest } (regAt addr) v with answer := some .ack }) := by
  have core : ∀ u ag, u = { s with agenda := ag } → (s.agenda = [] ∨ ∃ rest, s.agenda = .core :: rest) → coreTurn u = .next t →
    (s.pending = none ∧ t = { s with agenda := t.agenda } ∧ (s.agenda = [] ∨ ∃ rest, s.agenda = .core :: rest)) ∨
   (∃ v ag i, s.pending = some v ∧ decode v = .ok i ∧ (s.agenda = [] ∨ ∃ rest, s.agenda = .core :: rest) ∧ exec i { s with agenda := ag } = .next t) ∨
   (∃ v ag r, s.pending = some v ∧ decode v = .error r ∧ (s.agenda = [] ∨ ∃ rest, s.agenda = .core :: rest) ∧ t = ({ s with agenda := ag } : State).complete .illegal) := by
    intro u ag hu hag hc
    cases hp : s.pending with
    | none =>
      left
      rw [coreTurn_idle (by rw [hu]; exact hp)] at hc
      injection hc with hc
      subst hc; subst hu
      exact ⟨rfl, by simp [hp], hag⟩
    | some v =>
      right
      rw [coreTurn_pending (v := v) (by rw [hu]; exact hp)] at hc
      unfold performWord at hc
      cases hd : decode v with
      | ok i => rw [hd] at hc; left; exact ⟨v, ag, i, rfl, hd, hag, by rw [hp] at hu; rw [← hu]; exact hc⟩
      | error r => rw [hd] at hc; right; exact ⟨v, ag, r, rfl, hd, hag, by rw [hp] at hu; rw [← hu]; simpa using hc⟩
  rcases step_cases h with ⟨ha, hc⟩ | ⟨e, rest, ha, hr⟩
  · rcases core s [] (by cases s; simp at ha; simp [ha]) (.inl ha) hc with h | h | h
    · exact .inl h
    · exact .inr (.inl h)
    · exact .inr (.inr (.inl h))
  · cases e with
    | core => 
      rcases core _ rest rfl (.inr ⟨rest, ha⟩) hr with h | h | h
      · exact .inl h
      · exact .inr (.inl h)
      · exact .inr (.inr (.inl h))
    | reset =>
      refine .inr (.inr (.inr (.inl ⟨rest, ha, ?_⟩)))
      simp only [runEvent] at hr; injection hr with hr; rw [← hr]; rfl
    | read addr size =>
      refine .inr (.inr (.inr (.inr (.inl ⟨addr, size, rest, ha, ?_⟩))))
      rcases hostRead_cases hr with ⟨_, ⟨_, rfl⟩ | ⟨_, _, rfl⟩ | ⟨_, _, rfl⟩⟩ <;> rfl
    | write addr size v =>
      rcases hostWrite_cases hr with ⟨hw, ⟨_, rfl⟩ | ⟨hl, rfl⟩⟩
      · exact .inr (.inr (.inr (.inr (.inr (.inl ⟨addr, size, v, rest, ha, rfl⟩)))))
      · simp [legalAccess] at hl
        obtain ⟨rfl, h4⟩ := hl
        exact .inr (.inr (.inr (.inr (.inr (.inr ⟨addr, v, rest, ha, hw, h4, rfl⟩)))))

end Sys2Proof.Machine
end

