-- ==== Sys2Proof/Laws/Window.lean ====
section
/-! SUPPORT. The register map by its cases: which register stands at each word of the window, with its place in its array. -/

namespace Sys2Proof.Machine

theorem regAt_len0 (k : Fin 4) : regAt (0x020 + 4 * k.val) = .len .ctx0 k := by revert k; decide
theorem regAt_len1 (k : Fin 4) : regAt (0x030 + 4 * k.val) = .len .ctx1 k := by revert k; decide
theorem regAt_h0 (i : Fin 16) : regAt (0x040 + 4 * i.val) = .h .ctx0 i := by revert i; decide
theorem regAt_h1 (i : Fin 16) : regAt (0x080 + 4 * i.val) = .h .ctx1 i := by revert i; decide
theorem regAt_msg (i : Fin 32) : regAt (0x100 + 4 * i.val) = .msg i := by revert i; decide
theorem regAt_key (i : Fin 32) : regAt (0x180 + 4 * i.val) = .key i := by revert i; decide
theorem regAt_digest (i : Fin 16) : regAt (0x200 + 4 * i.val) = .digest i := by revert i; decide
theorem regAt_eaH (i : Fin 5) : regAt (0x240 + 8 * i.val) = .eaH i := by revert i; decide
theorem regAt_eaL (i : Fin 5) : regAt (0x244 + 8 * i.val) = .eaL i := by revert i; decide

/-- The offset or offsets at which a register stands (R20), as a condition that arithmetic can use. -/
def standsAt (r : Reg) (addr : Nat) : Bool :=
  match r with
  | .id => decide (addr = 0x000)
  | .cmd => decide (addr = 0x004)
  | .status => decide (addr = 0x008)
  | .ctrl => decide (addr = 0x00C)
  | .keylen => decide (addr = 0x010)
  | .ctxInfo c => decide (addr = 0x014 + 4 * ctxCode c)
  | .len c k => decide (addr = 0x020 + 0x10 * ctxCode c + 4 * k.val)
  | .h c i => decide (addr = 0x040 + 0x40 * ctxCode c + 4 * i.val)
  | .msg i => decide (addr = 0x100 + 4 * i.val)
  | .key i => decide (addr = 0x180 + 4 * i.val)
  | .digest i => decide (addr = 0x200 + 4 * i.val)
  | .eaH i => decide (addr = 0x240 + 8 * i.val)
  | .eaL i => decide (addr = 0x244 + 8 * i.val)
  | .erH => decide (addr = 0x268)
  | .erL => decide (addr = 0x26C)
  | .reserved => decide (addr = 0x01C ∨ (0x0C0 ≤ addr ∧ addr < 0x100) ∨ 0x270 ≤ addr)

/-- The register that `regAt` gives for a word-aligned offset of the window stands there: a case split on `regAt addr` gives the offset of each case. -/
theorem regAt_stands {addr : Nat} (h : addr < windowBytes) (h4 : addr % 4 = 0) : standsAt (regAt addr) addr = true := by
  obtain ⟨k, rfl⟩ : ∃ k, addr = 4 * k := ⟨addr / 4, by omega⟩
  have hk : k < 256 := by simp only [windowBytes] at h; omega
  clear h h4
  revert k
  decide +kernel

/-- The four lanes written to a buffer, and every other byte as before (R64). -/
theorem read_writeLanes (m : Memory) (a : Nat) (v : Word) (b : Nat) : Memory.read (writeLanes m a v) b = if a ≤ b ∧ b < a + 4 then v.extractLsb' (8 * (b - a)) 8 else Memory.read m b := by
  rw [writeLanes, Memory.read_writeList, length_bytesLE]
  split
  · rename_i h
    obtain ⟨j, hj, rfl⟩ : ∃ j, j < 4 ∧ b = a + j := ⟨b - a, by omega, by omega⟩
    apply BitVec.eq_of_toNat_eq
    simp [bytesLE, hj, Nat.shiftRight_eq_div_pow, Nat.pow_mul]
  · rfl

/-- What a register write leaves alone, and the three things it can change besides: KEYLEN, CTRL, EA and the buffers, each at its own register (R20, R320). -/
theorem writeReg_frame (s : State) (r : Reg) (v : Word) : 
   let t := writeReg s r v
   t.status.stpass = s.status.stpass ∧ t.status.dlen = s.status.dlen ∧ t.status.dalg = s.status.dalg ∧ t.er = s.er ∧ t.ctx0 = s.ctx0 ∧ t.ctx1 = s.ctx1 ∧
   (t.klen = s.klen ∨ r = .keylen) ∧ (t.ie = s.ie ∨ r = .ctrl) ∧ (t.ea = s.ea ∨ (∃ i, r = .eaH i ∧ t.ea = s.ea.set i { s.ea[i] with h := v}) ∨ (∃ i, r = .eaL i ∧ t.ea = s.ea.set i { s.ea[i] with l := v})) ∧
   (t.mem = s.mem ∨ (∃ i, r = .msg i ∧ t.mem = writeLanes s.mem (msgBase + 4 * i.val) v) ∨ (∃ i, r = .key i ∧ t.mem = writeLanes s.mem (keyBase + 4 * i.val) v)) := by
  cases r <;> cases hb : s.busy <;> simp [writeReg, State.inputWrite, State.writeStatus, State.issue, hb]

end Sys2Proof.Machine
end

