-- ==== Sys2Proof/Tests/Slice0.lean ====
section
/-! SUPPORT. The model's own tests: expected words are those of the spec's examples and of 95_test_vectors.md, named in each comment. After them, one witness for the hypotheses of every statement that has hypotheses. -/

namespace Sys2Proof.Tests

-- Tests run one after another: each waits on the kernel, and a thread per waiting test is more than the check's memory limit gives.
set_option Elab.async false

open Sys2Proof.Machine

/-! ## Helpers: small states, and views of the next state -/

/-- The next state, if there is one. -/
def nextOf (o : Host.Outcome State Fault Refusal) : Option State :=
  match o with
  | .next t => some t
  | .fault _ => none
  | .refused _ => none

/-- A view of the next state. -/
def seen {α : Type} (o : Host.Outcome State Fault Refusal) (f : State → α) : Option α := (nextOf o).map f

/-- The registers at some offsets of the window. -/
def regs (offs : List Nat) (t : State) : List Word := offs.map fun a => readReg t (regAt a)

/-- Words given as a list, zeros after them. -/
def words (l : List Word) : Vector Word 16 := Vector.ofFn fun i => l.getD i.val 0

/-- Reset, with MSG starting with the given bytes. -/
def withMsg (bs : List Byte) : State := { State.reset with mem := Memory.writeList [] msgBase bs }

/-- Reset, with the given context in ctx0. -/
def withCtx0 (x : Context) : State := { State.reset with ctx0 := x }

/-- Reset, with EA[0..] given. -/
def withEa (ps : List Pair) : State := { State.reset with ea := Vector.ofFn fun i => ps.getD i.val ⟨0, 0⟩ }

/-- Reset, with a pending word and events to come. -/
def busyWith (v : Word) (es : List Event) : State := { State.reset with cmd := v, pending := some v, agenda := es }

/-- A context just started. -/
def fresh (alg : Alg) : Context := startedContext alg false 0 (ivOf alg)

/-- Both contexts as an HMAC pair just started over zero pads' words. -/
def hmacPair (alg : Alg) : State :=
  { State.reset with ctx0 := startedContext alg true (8 * blockBytes alg) (ivOf alg), ctx1 := startedContext alg true (8 * blockBytes alg) (ivOf alg) }

/-! ## Well-formedness: each check refuses an ill-formed term -/

theorem test_wf_final_refused : (Instr.final .ctx0 256).wellFormed = false := by decide
theorem test_wf_final_accepted : (Instr.final .ctx0 255).wellFormed = true := by decide
theorem test_wf_hmacFinal_refused : (Instr.hmacFinal 256).wellFormed = false := by decide
theorem test_wf_erotr_refused : (Instr.erotr 32).wellFormed = false := by decide
theorem test_wf_erotrx_refused : (Instr.erotrx 32).wellFormed = false := by decide
theorem test_wf_eshr_refused : (Instr.eshr 32).wellFormed = false := by decide
theorem test_wf_eshr_accepted : (Instr.eshr 31).wellFormed = true := by decide

/-! ## Decoding: words written out from R91, R95 and R97 -/

theorem test_decode_nop : decode 0x00000000 = .ok .nop := by rfl
theorem test_decode_init : decode 0x00001301 = .ok (.init .rmd160 .ctx1) := by rfl
theorem test_decode_compress : decode 0x00001002 = .ok (.compress .ctx1) := by rfl
/-- NB = 56 in bits 23 to 16, CTX = 1 in bit 12 (P6). -/
theorem test_decode_final : decode 0x00381003 = .ok (.final .ctx1 56) := by rfl
theorem test_decode_selftest : decode 0x00000204 = .ok (.selftest .sha512) := by rfl
theorem test_decode_clear : decode 0x00000005 = .ok .clear := by rfl
theorem test_decode_hmacStart : decode 0x00000108 = .ok (.hmacStart .sha256) := by rfl
theorem test_decode_hmacFinal : decode 0x001C0009 = .ok (.hmacFinal 28) := by rfl
theorem test_decode_keydig : decode 0x0000000A = .ok .keydig := by rfl
theorem test_decode_eadd2 : decode 0x00020010 = .ok .eadd2 := by rfl
theorem test_decode_eadd3 : decode 0x00030010 = .ok .eadd3 := by rfl
theorem test_decode_eadd4 : decode 0x00040010 = .ok .eadd4 := by rfl
theorem test_decode_eadd5 : decode 0x00050010 = .ok .eadd5 := by rfl
/-- EROTR 14 (P3). -/
theorem test_decode_erotr : decode 0x00000E11 = .ok (.erotr 14) := by rfl
/-- EROTRX 9 (P3). -/
theorem test_decode_erotrx : decode 0x00000912 = .ok (.erotrx 9) := by rfl
theorem test_decode_eshr : decode 0x00001F13 = .ok (.eshr 31) := by rfl

/-- V-ERR-10 to V-ERR-17: the illegal words, each by its name. -/
theorem test_decode_illegal :
    [0x00000103, 0x00000006, 0x000000FF, 0x80000000, 0x00010001, 0x00010010, 0x00060010, 0x00002011].map
        (fun v => (decode v).toOption) = List.replicate 8 none ∧
      decode 0x00000006 = .error (.undefinedOp 6) ∧ decode 0x00060010 = .error (.addendCount 6) ∧
      decode 0x00010001 = .error (.strayBits 1) := by decide

/-- No word selects two rows of R97: every two rows differ in a bit that both masks hold. -/
theorem test_rows_disjoint : opRows.Pairwise fun r q => (r.code ^^^ q.code) &&& (r.mask &&& q.mask) ≠ 0 := by decide

/-- The encoder at the largest field values. -/
theorem test_encode_largest :
    encode (.final .ctx1 255) = 0x00FF1003 ∧ encode (.erotrx 31) = 0x00001F12 ∧ encode (.init .rmd160 .ctx1) = 0x00001301 := by decide

/-- A word placed in the reset state is what the next step performs. -/
theorem test_withFetchWord_runs :
    seen (step (State.reset.withFetchWord 32 0x00001101)) (regs [0x004, 0x008, 0x018]) = some [0x00001101, 0x00000002, 0x00000011] := by
  decide +kernel

/-! ## The digest commands -/

/-- V-NOP-1. -/
theorem test_nop : seen (exec .nop State.reset) statusWord = some 0x00000002 := by decide

/-- V-INIT-2. -/
theorem test_init :
    seen (exec (.init .sha256 .ctx1) State.reset) (regs [0x018, 0x080, 0x084, 0x09C, 0x0A0]) =
      some [0x00000011, 0x6A09E667, 0xBB67AE85, 0x5BE0CD19, 0] := by decide +kernel

/-- V-COMP-4. -/
theorem test_compress :
    seen (exec (.compress .ctx0) (withCtx0 (fresh .rmd160))) (regs [0x020, 0x040, 0x044, 0x048, 0x04C, 0x050]) =
      some [0x00000200, 0x187E9BC5, 0x248B9535, 0xD0D6DDCC, 0x987C4E30, 0xCB45101F] := by decide +kernel

/-- V-ERR-1. -/
theorem test_compress_idle : seen (exec (.compress .ctx0) State.reset) statusWord = some 0x00000022 := by decide

/-- V-ABC-1 and P1's end state. -/
theorem test_final :
    seen (exec (.final .ctx0 3) { withMsg abcBytes with ctx0 := fresh .sha1 })
        (regs [0x008, 0x014, 0x020, 0x200, 0x204, 0x208, 0x20C, 0x210, 0x214]) =
      some [0x00140002, 0x00000002, 0x00000018, 0x363E99A9, 0x6A810647, 0x71253EBA, 0x6CC25078, 0x9DD8D09C, 0] := by
  decide +kernel

/-- V-ERR-7: NB = B. -/
theorem test_final_operand : seen (exec (.final .ctx0 128) (withCtx0 (fresh .sha512))) statusWord = some 0x00000032 := by
  decide +kernel

/-- V-SELF-4. -/
theorem test_selftest : seen (exec (.selftest .rmd160) State.reset) statusWord = some 0x00000402 := by decide +kernel

/-- V-CLR-1 in small: buffers, EA, contexts and the sticky bits go, CTRL and CMD stay. -/
theorem test_clear :
    seen (exec .clear { withMsg abcBytes with cmd := 5, ie := true, klen := 9, ctx0 := fresh .sha1, status := { Status.reset with werr := true } })
        (regs [0x004, 0x008, 0x00C, 0x010, 0x014, 0x040, 0x100]) = some [5, 0x00000002, 1, 0, 0, 0, 0] := by decide +kernel

/-! ## The HMAC commands -/

/-- The example of R252. -/
theorem test_hmacStart :
    seen (exec (.hmacStart .sha256) { State.reset with klen := 4, mem := Memory.writeList [] keyBase [0x4A, 0x65, 0x66, 0x65] })
        (regs [0x014, 0x018, 0x020, 0x030, 0x040, 0x05C, 0x080, 0x09C]) =
      some [0x00000111, 0x00000111, 0x00000200, 0x00000200, 0x655DA7FA, 0x78C7500C, 0x0EAFE3D5, 0x52F141D5] := by
  decide +kernel

/-- V-ERR-22. -/
theorem test_hmacStart_operand : seen (exec (.hmacStart .sha1) { State.reset with klen := 65 }) statusWord = some 0x00000032 := by
  decide +kernel

/-- The example of R253, from the words of the example of R252. -/
theorem test_hmacFinal :
    seen (exec (.hmacFinal 28)
        { withMsg [0x77, 0x68, 0x61, 0x74, 0x20, 0x64, 0x6F, 0x20, 0x79, 0x61, 0x20, 0x77, 0x61, 0x6E, 0x74, 0x20,
            0x66, 0x6F, 0x72, 0x20, 0x6E, 0x6F, 0x74, 0x68, 0x69, 0x6E, 0x67, 0x3F] with
          ctx0 := startedContext .sha256 true 512 (words [0x655DA7FA, 0xCC434B37, 0x5A1CD5CB, 0x0692EE0E, 0xA47A23D3, 0x4C3AF449, 0xDBA21AE2, 0x78C7500C])
          ctx1 := startedContext .sha256 true 512 (words [0x0EAFE3D5, 0x13412E6C, 0x6A6A2FEB, 0x2D375ACC, 0x51A4FD47, 0x6DB095E8, 0x23BFA18A, 0x52F141D5]) })
        (regs [0x008, 0x014, 0x018, 0x020, 0x030, 0x040, 0x200, 0x21C]) =
      some [0x00201002, 0x00000112, 0x00000112, 0x000002E0, 0x00000300, 0xA2E48586, 0x46C1DC5B, 0x4338EC64] := by
  decide +kernel

/-- V-ERR-19: two active contexts that are no HMAC pair. -/
theorem test_hmacFinal_state :
    seen (exec (.hmacFinal 0) { State.reset with ctx0 := fresh .sha1, ctx1 := fresh .sha1 }) statusWord = some 0x00000022 := by
  decide +kernel

/-- The example of R254, with the digest of V-ABC-1 in DIGEST. -/
theorem test_keydig :
    seen (exec .keydig
        { State.reset with
          mem := Memory.writeList [] digestBase (refDigest .sha1), klen := 99, status := { Status.reset with dlen := 20 } })
        (regs [0x008, 0x010, 0x180, 0x190, 0x194]) = some [0x00140002, 0x14, 0x363E99A9, 0x9DD8D09C, 0] := by decide +kernel

/-- V-ERR-26. -/
theorem test_keydig_state : seen (exec .keydig State.reset) statusWord = some 0x00000022 := by decide

/-! ## The emulation commands: the examples of R122 to R128 -/

theorem test_eadd2 : seen (exec .eadd2 (withEa [⟨0, 0xFFFFFFFF⟩, ⟨0, 1⟩])) State.er = some ⟨1, 0⟩ := by decide +kernel
theorem test_eadd3 :
    seen (exec .eadd3 (withEa [⟨0x7FFFFFFF, 0xFFFFFFFF⟩, ⟨0, 1⟩, ⟨0, 2⟩, ⟨0, 4⟩])) State.er = some ⟨0x80000000, 2⟩ := by decide +kernel
theorem test_eadd4 :
    seen (exec .eadd4 (withEa [⟨0x0000FFFF, 0xFFFFFFFF⟩, ⟨0, 1⟩, ⟨0, 0⟩, ⟨0, 0⟩, ⟨0, 7⟩])) State.er = some ⟨0x00010000, 0⟩ := by
  decide +kernel
theorem test_eadd5 :
    seen (exec .eadd5 (withEa (List.replicate 5 ⟨0xFFFFFFFF, 0xFFFFFFFF⟩))) State.er = some ⟨0xFFFFFFFF, 0xFFFFFFFB⟩ := by
  decide +kernel
theorem test_erotr : seen (exec (.erotr 4) (withEa [⟨0x01234567, 0x89ABCDEF⟩])) State.er = some ⟨0xF0123456, 0x789ABCDE⟩ := by
  decide +kernel
theorem test_erotr_zero : seen (exec emov (withEa [⟨0x01234567, 0x89ABCDEF⟩])) State.er = some ⟨0x01234567, 0x89ABCDEF⟩ := by
  decide +kernel
theorem test_erotrx : seen (exec (.erotrx 4) (withEa [⟨0x01234567, 0x89ABCDEF⟩])) State.er = some ⟨0x789ABCDE, 0xF0123456⟩ := by
  decide +kernel
theorem test_erotrx_zero : seen (exec eswap (withEa [⟨0x01234567, 0x89ABCDEF⟩])) State.er = some ⟨0x89ABCDEF, 0x01234567⟩ := by
  decide +kernel
theorem test_eshr : seen (exec (.eshr 4) (withEa [⟨0x01234567, 0x89ABCDEF⟩])) State.er = some ⟨0x00123456, 0x789ABCDE⟩ := by
  decide +kernel

/-! ## Tables and padding -/

/-- R234 and R235: each band of each message-word table is a permutation of 0 to 15, and every shift is 5 to 15. -/
theorem test_rmd_tables :
    (List.range 5).all (fun b =>
      (List.range 16).all fun v => (rmdR1.drop (16 * b) |>.take 16).contains v && (rmdR2.drop (16 * b) |>.take 16).contains v) = true ∧
      rmdR1.length = 80 ∧ rmdR2.length = 80 ∧ rmdS1.length = 80 ∧ rmdS2.length = 80 ∧
      (rmdS1 ++ rmdS2).all (fun n => decide (5 ≤ n ∧ n ≤ 15)) = true := by decide +kernel

/-- V-EMPTY-4, V-M448-4 and V-PAD-13, which with V-ABC-4 (test_selftest) reach every entry of r1, r2, s1, s2, K1 and K2 (R240); M448 in bytes is the text's. -/
theorem test_rmd_vectors :
    digestOf .rmd160 [] = bytesBE 0x9c1185a5c5e9fc54612808977ee8f548b2258d31 20 ∧
      digestOf .rmd160 ("abcdbcdecdefdefgefghfghighijhijkijkljklmklmnlmnomnopnopq".toList.map fun ch => BitVec.ofNat 8 ch.toNat) =
        bytesBE 0x12a053384a9c0c88e405a06c27dcf49ada62eb2b 20 ∧
      digestOf .rmd160 (List.replicate 55 0x61) = bytesBE 0x0d8a8c9063a48576a7c97e9f95253a6e53ff6765 20 := by decide +kernel

/-- The statement's M448 is the text of the vectors. -/
theorem test_m448 :
    ((List.range 14).flatMap fun i => (List.range 4).map fun j => (BitVec.ofNat 8 (0x61 + i + j) : Byte)) =
      "abcdbcdecdefdefgefghfghighijhijkijkljklmklmnlmnomnopnopq".toList.map fun ch => BitVec.ofNat 8 ch.toNat := by decide +kernel

/-- V-BUS-2 at the edges of the ignored ranges: an idle write to a read-only or reserved offset changes nothing but the answer (R20, R320). -/
theorem test_ignored_writes :
    ∀ addr ∈ [0x000, 0x014, 0x0FC, 0x200, 0x23C, 0x268, 0x3FC],
      seen (hostWrite State.reset addr 4 0xFFFFFFFF) (fun t => decide (t = { State.reset with answer := some .ack })) = some true := by
  decide +kernel

/-- V-ABC-1's STATUS as the host reads it at 0x008. -/
theorem test_status_read :
    seen (hostRead { State.reset with status := { Status.reset with done := true, dlen := 20 } } 0x008 4) State.answer =
      some (some (.data 0x00140002)) := by decide +kernel

/-- The padded block of "abc" as each algorithm reads it (section 3 of the vectors). -/
theorem test_pad_abc :
    (padBlocks .sha1 abcBytes 24).map (fun b => [be32 b 0, be32 b 4, be32 b 56, be32 b 60]) = [[0x61626380, 0, 0, 0x18]] ∧
      (padBlocks .sha512 abcBytes 24).map (fun b => [be32 b 0, be32 b 4, be32 b 120, be32 b 124]) = [[0x61626380, 0, 0, 0x18]] ∧
      (padBlocks .rmd160 abcBytes 24).map (fun b => [le32 b 0, le32 b 4, le32 b 56, le32 b 60]) = [[0x80636261, 0, 0x18, 0]] := by
  decide +kernel

/-! ## The window, the bus, the interrupt and reset -/

/-- V-BUSY-1: the three accesses made while INIT is pending. -/
theorem test_busy_writes :
    seen (Host.Core.run Sys2Proof.core 3
        { busyWith 1 [wrLine 0x100 0xAAAAAAAA, wrLine 0x004 0, wrLine 0x00C 1] with mem := writeLanes [] msgBase 0x11223344 })
        (regs [0x008, 0x100, 0x004, 0x00C]) = some [0x00000301, 0x11223344, 1, 1] := by decide +kernel

/-- V-BUSY-1's end: W1C of DONE, WERR and CERR. -/
theorem test_status_w1c :
    seen (hostWrite { State.reset with ie := true, status := { Status.reset with done := true, werr := true, cerr := true, stpass := true } } 0x008 4 0x00000302)
        (fun t => (statusWord t, t.irq)) = some (0x00000400, false) := by decide +kernel

/-- V-BUS-1 and V-BUS-2. -/
theorem test_bus :
    seen (hostRead State.reset 0x002 4) State.answer = some (some (.busError 0x002)) ∧
      seen (hostRead State.reset 0x01C 4) State.answer = some (some (.data 0)) ∧
      hostWrite State.reset 0x3FC 4 0xFFFFFFFF = .next { State.reset with answer := some .ack } := by
  refine ⟨by decide +kernel, by decide +kernel, rfl⟩

/-- The window ends at 1024. -/
theorem test_outside : hostRead State.reset 1024 4 = .fault (.outsideWindow 1024) := by rfl

/-- V-ID-1, after CLEAR. -/
theorem test_id : seen (exec .clear State.reset) (regs [0x000]) = some [0x48434331] := by decide +kernel

/-- V-IRQ-1: IRQ rises as soon as IE is written while DONE is 1. -/
theorem test_irq :
    seen (hostWrite { State.reset with status := { Status.reset with done := true } } 0x00C 4 1) State.irq = some true := by decide +kernel

/-- A command pending at reset is abandoned (R300). -/
theorem test_reset_abandons : seen (step (busyWith 0x00000001 [.reset])) (fun t => (t.busy, t.ctx0.state)) = some (false, .idle) := by
  decide +kernel

/-- A pending command's own register reads as a free value; one it does not write reads its value (R321). -/
theorem test_busy_reads :
    readUnspecified (busyWith 0x00000001 []) (regAt 0x040) = true ∧ readUnspecified (busyWith 0x00000001 []) (regAt 0x080) = false ∧
      readUnspecified (busyWith 0x00000006 []) (regAt 0x040) = false := by decide +kernel

/-! ## Witnesses: states and operands that meet each statement's hypotheses together -/

/-- Two views of a step's next state: what stood before and what stands after. -/
def changes {α : Type} (s : State) (f : State → α) : Option (α × α) := (seen (step s) f).map fun b => (f s, b)

theorem witness_DecodeOfEncode : (Instr.final .ctx1 255).wellFormed = true ∧ (Instr.eshr 31).wellFormed = true := by decide

theorem witness_EncodeOfDecode : decode 0x00FF1003 = .ok (.final .ctx1 255) := by rfl

theorem witness_StepRunsTheDecodedCommand :
    ((busyWith 0x00020010 []).pending = some 0x00020010 ∧ (busyWith 0x00020010 []).agenda = []) ∧
      (busyWith 0x00020010 [.core, .reset]).agenda = .core :: [.reset] ∧ decode 0x00020010 = .ok .eadd2 ∧
      decodeTableWord 32 0x00020010 = some .eadd2 := by decide

theorem witness_IllegalWordOnlyCompletes :
    (busyWith 0x00060010 []).pending = some 0x00060010 ∧ decode 0x00060010 = .error (.addendCount 6) ∧
      (busyWith 0x00060010 []).agenda = [] := by decide

theorem witness_IdleMachineDoesNothing : State.reset.busy = false ∧ State.reset.agenda = [] := by decide

theorem witness_EveryCommandCompletes : Instr.nop ≠ .clear := by decide

theorem witness_PendingCommandEndsWithinTheAgenda :
    (busyWith 2 [.read 0x008 4, .write 0x3FF 1 0]).busy = true ∧
      ∀ e ∈ (busyWith 2 [.read 0x008 4, .write 0x3FF 1 0]).agenda, eventInWindow e = true := by decide

theorem witness_BusyChangesOnlyAtIssueCompletionReset :
    changes { State.reset with agenda := [.write 0x004 4 0] } State.busy = some (false, true) ∧
      changes (busyWith 0 []) State.busy = some (true, false) ∧ changes (busyWith 0 [.core]) State.busy = some (true, false) ∧
      changes (busyWith 0 [.reset]) State.busy = some (true, false) := by decide +kernel

theorem witness_FailedCommandChangesOnlyStatus :
    ∃ t, exec (.compress .ctx0) State.reset = .next t ∧ t.status.err ≠ .none := ⟨_, rfl, by decide⟩

/-- STATE before OPERAND (V-ERR-8); OPERAND at NB = B (V-ERR-4); neither at NB = B - 1 (V-ERR-5). -/
theorem witness_ErrorCodesAndPrecedence :
    (stateErrorCause (.final .ctx0 200) State.reset ∧ operandErrorCause (.final .ctx0 200) State.reset) ∧
      (¬stateErrorCause (.final .ctx0 64) (withCtx0 (fresh .sha1)) ∧ operandErrorCause (.final .ctx0 64) (withCtx0 (fresh .sha1))) ∧
      ¬stateErrorCause (.final .ctx0 63) (withCtx0 (fresh .sha1)) ∧ ¬operandErrorCause (.final .ctx0 63) (withCtx0 (fresh .sha1)) := by
  simp [stateErrorCause, operandErrorCause, withCtx0, fresh, startedContext, State.ctx, State.reset, Context.reset, blockBytes]

theorem witness_NopOnlyCompletes : wordField 0x80000000 7 0 = 0 ∧ (0x80000000 : Word) ≠ 0 := by decide

theorem witness_CompressAbsorbsOneBlock :
    ((withCtx0 (fresh .sha512)).ctx .ctx0).state = .active ∧ ((withCtx0 (fresh .sha512)).ctx .ctx1).state ≠ .active := by decide +kernel

/-- MSG[64] differs, MSG[0..64) does not. -/
theorem witness_CompressIgnoresBytesBeyondTheBlock :
    (∀ i < blockBytes ((withCtx0 (fresh .sha1)).ctx .ctx0).alg,
        Memory.read (Memory.write [] (msgBase + 64) 1) (msgBase + i) = Memory.read (withCtx0 (fresh .sha1)).mem (msgBase + i)) ∧
      Memory.write [] (msgBase + 64) 1 ≠ (withCtx0 (fresh .sha1)).mem := by decide +kernel

theorem witness_FinalWritesTheDigest :
    (255 < 256 ∧ ((withCtx0 (fresh .sha1)).ctx .ctx0).state = .active ∧ 63 < blockBytes ((withCtx0 (fresh .sha1)).ctx .ctx0).alg) ∧
      blockBytes ((withCtx0 (fresh .sha1)).ctx .ctx0).alg ≤ 64 ∧ (State.reset.ctx .ctx1).state ≠ .active := by decide +kernel

theorem witness_HmacPadsFromTheKey :
    let s := { State.reset with klen := 64 }
    let r := { State.reset with klen := 4 }
    (63 < 64 ∧ s.klen.toNat ≤ 64 ∧ 63 < s.klen.toNat) ∧ (4 < 64 ∧ r.klen.toNat ≤ 64 ∧ r.klen.toNat ≤ 4) := by decide

theorem witness_HmacStartStartsBothContexts :
    ({ State.reset with klen := 64 } : State).klen.toNat ≤ blockBytes .rmd160 ∧
      blockBytes .rmd160 < ({ State.reset with klen := 65 } : State).klen.toNat ∧
      ({ State.reset with klen := 128 } : State).klen.toNat ≤ blockBytes .sha512 ∧
      blockBytes .sha512 < ({ State.reset with klen := 129 } : State).klen.toNat := by decide

/-- KEY[4] differs, KEY[0..4) does not. -/
theorem witness_HmacStartIgnoresBytesBeyondTheKey :
    let s := { State.reset with klen := 4 }
    (∀ i < s.klen.toNat, Memory.read (Memory.write [] (keyBase + 4) 1) (keyBase + i) = Memory.read s.mem (keyBase + i)) ∧
      Memory.write [] (keyBase + 4) 1 ≠ s.mem := by decide

theorem witness_HmacFinalWritesTheOuterDigest :
    let s := hmacPair .sha1
    (((s.ctx0.state = .active ∧ s.ctx0.hmac = true) ∧ (s.ctx1.state = .active ∧ s.ctx1.hmac = true) ∧ s.ctx0.alg = s.ctx1.alg) ∧
        63 < blockBytes s.ctx0.alg ∧ blockBytes s.ctx0.alg ≤ 64 ∧ 255 < 256) ∧
      ¬((State.reset.ctx0.state = .active ∧ State.reset.ctx0.hmac = true) ∧
        (State.reset.ctx1.state = .active ∧ State.reset.ctx1.hmac = true) ∧ State.reset.ctx0.alg = State.reset.ctx1.alg) := by
  decide +kernel

theorem witness_KeydigMovesTheDigest :
    ({ State.reset with status := { Status.reset with dlen := 64 } } : State).status.dlen ≠ 0 ∧ State.reset.status.dlen = 0 := by decide

theorem witness_LayerIsNativeArithmetic :
    (2 ≤ (List.replicate 5 (⟨1, 2⟩ : Pair)).length ∧ (List.replicate 5 (⟨1, 2⟩ : Pair)).length ≤ 5) ∧ 31 < 32 := by decide

theorem witness_RotateAndShiftCommands : 0 < 32 ∧ 31 < 32 := by decide

theorem witness_ScheduleRecurrences : (16 ≤ 16 ∧ 16 < 64) ∧ (16 ≤ 79 ∧ 79 < 80) ∧ 15 < 16 := by decide

theorem witness_CompressionKeepsUnusedWords :
    stateWords .sha1 ≤ (5 : Fin 16).val ∧ stateWords .sha256 ≤ (8 : Fin 16).val ∧ stateWords .rmd160 ≤ (15 : Fin 16).val := by decide

theorem witness_PaddingContent :
    (List.replicate 63 (0xFF : Byte)).length < blockBytes .rmd160 ∧ ([] : List Byte).length < blockBytes .sha512 := by decide

/-- The largest one-block tail and the smallest two-block tail (R151). -/
theorem witness_PaddingBlockCount :
    ((List.replicate 55 (1 : Byte)).length < blockBytes .sha1 ∧ 55 + 1 + lengthBytes .sha1 ≤ blockBytes .sha1) ∧
      (List.replicate 112 (1 : Byte)).length < blockBytes .sha512 ∧ ¬112 + 1 + lengthBytes .sha512 ≤ blockBytes .sha512 := by decide

/-- A context that has absorbed nothing, and one that has absorbed a block. -/
theorem witness_CommandsComputeTheDigest :
    let b : List Byte := List.replicate 64 0x61
    (fresh .sha256).Absorbed .sha256 false [] ∧
      (startedContext .sha1 false 512 (compressBlock .sha1 (ivOf .sha1) b)).Absorbed .sha1 false b ∧ 63 < blockBytes .sha1 := by
  refine ⟨⟨rfl, rfl, rfl, rfl, rfl, rfl⟩, ⟨rfl, rfl, rfl, rfl, rfl, ?_⟩, by decide⟩
  rw [wholeBlocks_single (blockBytes .sha1) (blockBytes_pos .sha1) _ (by rfl)]; rfl

/-- The pads of the empty key absorbed, no data yet. -/
theorem witness_CommandsComputeHmac :
    let ipad := innerPad State.reset 64
    let opad := outerPad State.reset 64
    State.reset.klen.toNat ≤ blockBytes .sha1 ∧ 63 < blockBytes .sha1 ∧
      (startedContext .sha1 true 512 (compressBlock .sha1 (ivOf .sha1) ipad)).Absorbed .sha1 true (ipad ++ []) ∧
      (startedContext .sha1 true 512 (compressBlock .sha1 (ivOf .sha1) opad)).Absorbed .sha1 true opad := by
  refine ⟨by decide, by decide, ⟨rfl, rfl, rfl, rfl, rfl, ?_⟩, ⟨rfl, rfl, rfl, rfl, rfl, ?_⟩⟩
  · rw [List.append_nil, wholeBlocks_single _ (blockBytes_pos _) _ (by rfl)]; rfl
  · rw [wholeBlocks_single _ (blockBytes_pos _) _ (by rfl)]; rfl

theorem witness_RegisterMapReads : State.reset.busy = false ∧ 3 < 4 ∧ 99 < 100 := by decide

theorem witness_BufferByteLanes : State.reset.busy = false ∧ 31 < 32 ∧ 79 < 80 := by decide

/-- An idle state, and the first and last ignored offset of each range. -/
theorem witness_ControlAndOperandWrites :
    State.reset.busy = false ∧
      ∀ addr ∈ [0x000, 0x014, 0x0FC, 0x200, 0x23C, 0x268, 0x3FC],
        addr % 4 = 0 ∧
          (addr = 0x000 ∨ (0x014 ≤ addr ∧ addr < 0x100) ∨ (0x200 ≤ addr ∧ addr < 0x240) ∨ (0x268 ≤ addr ∧ addr < 0x400)) := by
  decide

theorem witness_BusErrorChangesNothing :
    (0x002 < 1024 ∧ (4 ≠ 4 ∨ 0x002 % 4 ≠ 0)) ∧ (0x000 < 1024 ∧ (2 ≠ 4 ∨ 0x000 % 4 ≠ 0)) ∧ (0x3FF < 1024 ∧ (1 ≠ 4 ∨ 0x3FF % 4 ≠ 0)) := by decide

theorem witness_ReadsChangeNothing :
    ∃ t, step { State.reset with agenda := [.read 0x100 4] } = .next t := ⟨_, rfl⟩

/-- One offset of each clause, the last and the first of its range. -/
theorem witness_WritesWhileBusy :
    (busyWith 1 []).busy = true ∧
      ∀ addr ∈ [0x004, 0x008, 0x00C, 0x010, 0x014, 0x0FC, 0x100, 0x1FC, 0x200, 0x23C, 0x240, 0x264, 0x268, 0x3FC],
        addr < 1024 ∧ addr % 4 = 0 := by decide

theorem witness_CmdWriteIssues : State.reset.busy = false := by decide

theorem witness_InputsStandWhileBusy :
    changes (busyWith 1 [.write 0x100 4 7]) State.busy = some (true, true) := by decide +kernel

theorem witness_SpecifiedReadsAreNotWritten :
    (∃ t, exec (.init .sha1 .ctx0) State.reset = .next t) ∧ Reg.h .ctx1 0 ≠ .status ∧ writesReg (.init .sha1 .ctx0) (.h .ctx1 0) = false :=
  ⟨⟨_, rfl⟩, by decide, by decide⟩

theorem witness_SpecifiedReadsAnswerTheRegister :
    (State.reset.busy = false ∧ 0x3FC < 1024) ∧ ((busyWith 5 []).busy = true ∧ 0x00C ≤ 0x00C) ∧
      ∃ v r, (busyWith 6 []).pending = some v ∧ decode v = .error r := by
  refine ⟨by decide, by decide, 6, .undefinedOp 6, rfl, rfl⟩

/-- A register that the pending INIT writes, and one that it does not. -/
theorem witness_UnspecifiedReadsAreExactlyThese :
    (busyWith 1 []).pending = some 1 ∧ decode 1 = .ok (.init .sha1 .ctx0) ∧ (0x040 < 1024 ∧ 0x040 % 4 = 0) ∧
      (0x040 + 0x40 * ctxCode .ctx0 ≤ 0x040 ∧ 0x040 < 0x080 + 0x40 * ctxCode .ctx0) ∧
      ¬(0x040 + 0x40 * ctxCode .ctx0 ≤ 0x080 ∧ 0x080 < 0x080 + 0x40 * ctxCode .ctx0) := by decide

theorem witness_InterruptFollowsDoneAndEnable :
    (∃ t, exec .nop State.reset = .next t) ∧ (∃ t, hostWrite State.reset 0x008 4 2 = .next t) ∧ (2 : Word).getLsbD 1 = true ∧
      ∃ t, hostWrite State.reset 0x00C 4 0 = .next t := ⟨⟨_, rfl⟩, ⟨_, rfl⟩, by decide, ⟨_, rfl⟩⟩

theorem witness_ResetValues : (busyWith 1 [.reset]).agenda = .reset :: [] ∧ 255 < 256 := by decide

/-- A busy state with a byte in MSG meets the invariant, and steps. -/
theorem witness_StepKeepsTheInvariant :
    let s := { busyWith 1 [] with mem := [(0x17F, 0xAA)], ctx1 := fresh .sha256 }
    s.Inv ∧ ∃ t, step s = .next t := by
  refine ⟨⟨by decide, by decide, ⟨by decide, by decide, by decide, by decide⟩, ⟨by decide, by decide, by decide, by decide⟩, ?_, by decide, ?_⟩, _, rfl⟩
  · intro v hv
    have : v = 1 := by simpa [busyWith] using hv.symm
    subst this; decide
  · intro i _ hi
    exact Memory.read_eq_zero_of_absent _ _ (by simp [digestBase]; omega)

theorem witness_DigestAndSelftestWriters :
    changes (busyWith 0x00000004 []) (fun t => t.status.stpass) = some (false, true) ∧
      changes { busyWith 0x00000003 [] with ctx0 := fresh .sha1 } (fun t => t.status.dlen) = some (0, 20) ∧
      changes { busyWith 0x00000005 [] with status := { Status.reset with stpass := true, dlen := 20 } }
        (fun t => (t.status.stpass, t.status.dlen)) = some ((true, 20), (false, 0)) := by decide +kernel

theorem witness_InputRegisterWriters :
    changes { State.reset with agenda := [.write 0x17C 4 0xAA000000] } (fun t => msgByte t 127) = some (0, 0xAA) ∧
      changes { State.reset with agenda := [.write 0x180 4 0x11] } (fun t => keyByte t 0) = some (0, 0x11) ∧
      changes { busyWith 0x0000000A [] with mem := [(0x200, 0x77)], status := { Status.reset with dlen := 20 } }
        (fun t => (keyByte t 0, t.klen)) = some ((0, 0), (0x77, 20)) ∧
      changes { State.reset with agenda := [.write 0x010 4 9] } (fun t => t.klen) = some (0, 9) ∧
      changes { State.reset with agenda := [.write 0x260 4 5] } (fun t => t.ea[4].h) = some (0, 5) ∧
      changes { State.reset with agenda := [.write 0x244 4 6] } (fun t => t.ea[0].l) = some (0, 6) := by decide +kernel

theorem witness_ResultAndControlWriters :
    changes { busyWith 0x00020010 [] with ea := Vector.replicate 5 ⟨0, 1⟩ } State.er = some (⟨0, 0⟩, ⟨0, 2⟩) ∧
      changes { State.reset with agenda := [.write 0x00C 4 1] } State.ie = some (false, true) ∧
      changes { State.reset with ie := true, agenda := [.reset] } State.ie = some (true, false) := by decide +kernel

theorem witness_ContextLife :
    changes (busyWith 0x00000001 []) (fun t => t.ctx0.state) = some (.idle, .active) ∧
      changes { busyWith 0x00000002 [] with ctx0 := fresh .sha1 } (fun t => t.ctx0.len) = some (0, 512) ∧
      changes { busyWith 0x00000003 [] with ctx0 := fresh .sha1 } (fun t => t.ctx0.state) = some (.active, .final) ∧
      changes { busyWith 0x00000005 [] with ctx0 := fresh .sha1 } (fun t => t.ctx0.state) = some (.active, .idle) := by decide +kernel

theorem witness_DisciplinedHostSetsNoStickyBit :
    (disciplinedEvent State.reset (.write 0x100 4 1) = true ∧ disciplinedEvent (busyWith 1 []) (.write 0x00C 4 1) = true ∧
        disciplinedEvent (busyWith 1 []) (.write 0x004 4 1) = false) ∧
      (∃ t, step { State.reset with agenda := [.write 0x100 4 1] } = .next t) := ⟨by decide, _, rfl⟩

end Sys2Proof.Tests
end

/-! # The two effect relations

What a command and a step can do, as relations with one named case each (the laws `exec_cases` and `step_effects`), and what each leaves of every register. -/

namespace Sys2Proof.Machine

/-- What performing a command does to the state, one case per kind of effect. -/
inductive CommandEffect (s : State) : Instr → State → Prop
  /-- NOP, or a command error (R140, R272). -/
  | onlyCompletes (i : Instr) (e : ErrCode) : CommandEffect s i (s.complete e)
  | selftests (alg : Alg) (b : Bool) :
      CommandEffect s (.selftest alg) (({ s with status := { s.status with stpass := b } } : State).complete .none)
  | clears : CommandEffect s .clear (s.cleared.complete .none)
  | inits (alg : Alg) (c : CtxId) (x : Context) (hx : x = startedContext alg false 0 (ivOf alg)) :
      CommandEffect s (.init alg c) ((s.setCtx c x).complete .none)
  | compresses (c : CtxId) (x : Context) (active : (s.ctx c).state = .active)
      (hx : x =
        { s.ctx c with
          h := compressBlock (s.ctx c).alg (s.ctx c).h (msgSlice s (blockBytes (s.ctx c).alg))
          len := (s.ctx c).len + BitVec.ofNat 128 (8 * blockBytes (s.ctx c).alg) }) :
      CommandEffect s (.compress c) ((s.setCtx c x).complete .none)
  | finishes (c : CtxId) (nb : Nat) (x : Context) (active : (s.ctx c).state = .active)
      (hx : x = finishContext (s.ctx c) (s.ctx c).alg (msgSlice s nb)) :
      CommandEffect s (.final c nb) (((s.setCtx c x).writeDigest (s.ctx c).alg x.h).complete .none)
  /-- HMAC_START, whatever the two pads are (R252). -/
  | startsHmac (alg : Alg) (ipad opad : List Byte) (x y : Context)
      (hx : x = startedContext alg true (8 * blockBytes alg) (compressBlock alg (ivOf alg) ipad))
      (hy : y = startedContext alg true (8 * blockBytes alg) (compressBlock alg (ivOf alg) opad)) :
      CommandEffect s (.hmacStart alg) (((s.setCtx .ctx0 x).setCtx .ctx1 y).complete .none)
  /-- HMAC_FINAL, whatever the two tails are (R253). -/
  | finishesHmac (nb : Nat) (ready : hmacPairReady s = true) (inner outer : List Byte) (x y : Context)
      (hx : x = finishContext s.ctx0 s.ctx0.alg inner) (hy : y = finishContext s.ctx1 s.ctx0.alg outer) :
      CommandEffect s (.hmacFinal nb)
        ((((s.setCtx .ctx0 x).setCtx .ctx1 y).writeDigest s.ctx0.alg y.h).complete .none)
  /-- KEYDIG: 128 bytes to KEY (R254). -/
  | movesDigest (bytes : List Byte) (length : bytes.length = 128) (k : BitVec 8) :
      CommandEffect s .keydig
        (({ s with mem := Memory.writeList s.mem keyBase bytes, klen := k } : State).complete .none)
  | emulates (i : Instr) (p : Pair)
      (emulation : i = .eadd2 ∨ i = .eadd3 ∨ i = .eadd4 ∨ i = .eadd5 ∨ ∃ n, i = .erotr n ∨ i = .erotrx n ∨ i = .eshr n) :
      CommandEffect s i ((s.setEr p).complete .none)

/-- Every meaning is one of the effects. -/
theorem exec_effect {i : Instr} {s t : State} (h : exec i s = .next t) : CommandEffect s i t := by
  rcases exec_cases h with ⟨e, rfl⟩ | ⟨alg, rfl, ht⟩ | ⟨rfl, rfl⟩ | ⟨alg, c, rfl, rfl⟩ | ⟨c, rfl, ha, rfl⟩ |
    ⟨c, nb, rfl, ha, _, rfl⟩ | ⟨alg, rfl, _, rfl⟩ | ⟨nb, rfl, hp, _, x, y, hx, hy, rfl⟩ | ⟨rfl, _, rfl⟩ | ⟨hi, p, rfl⟩
  · exact .onlyCompletes i e
  · rw [ht]; exact .selftests alg _
  · exact .clears
  · exact .inits alg c _ rfl
  · exact .compresses c _ ha rfl
  · exact .finishes c nb _ ha rfl
  · exact .startsHmac alg _ _ _ _ rfl rfl
  · exact .finishesHmac nb hp _ _ x y hx hy
  · refine .movesDigest _ ?_ _
    have := s.status.dlen.isLt
    simp [digestSlice]
    omega
  · exact .emulates i p hi

/-- What a step does to the state, named by who moved. -/
inductive StepEffect (s : State) : State → Prop
  /-- The idle core's turn, a read, or a write with a bus error (R62, R72, R292). -/
  | quiet (agenda : List Event) (answer : Option Answer) (freeReads : Nat) :
      StepEffect s { s with agenda := agenda, answer := answer, freeReads := freeReads }
  | performs (i : Instr) (agenda : List Event) (t : State) (performs : Performs s i)
      (effect : CommandEffect { s with agenda := agenda } i t) : StepEffect s t
  /-- The core's turn on an illegal word (R271). -/
  | rejects (agenda : List Event) (turn : s.agenda = [] ∨ ∃ rest, s.agenda = .core :: rest) :
      StepEffect s (({ s with agenda := agenda } : State).complete .illegal)
  | resets (rest : List Event) (next : s.agenda = .reset :: rest) :
      StepEffect s { State.reset with agenda := rest, freeReads := s.freeReads }
  /-- A legal host write: the register's write effect (R60, R320). -/
  | writes (addr : Nat) (v : Word) (rest : List Event) (next : s.agenda = .write addr 4 v :: rest)
      (stands : standsAt (regAt addr) addr = true) (aligned : addr % 4 = 0) :
      StepEffect s { writeReg { s with agenda := rest } (regAt addr) v with answer := some .ack }

/-- Every step is one of the effects. -/
theorem step_effect {s t : State} (h : step s = .next t) : StepEffect s t := by
  rcases step_effects h with ⟨_, ht, _⟩ | ⟨v, ag, i, hp, hd, turn, he⟩ | ⟨_, ag, _, _, _, turn, rfl⟩ | ⟨rest, ha, rfl⟩ |
    ⟨_, _, rest, _, ht⟩ | ⟨_, _, _, rest, _, ht⟩ | ⟨addr, v, rest, ha, hw, h4, rfl⟩
  · rw [ht]; exact .quiet _ s.answer s.freeReads
  · exact .performs i ag t ⟨v, hp, hd, turn⟩ (exec_effect he)
  · exact .rejects ag turn
  · exact .resets rest ha
  · rw [ht]; exact .quiet _ _ _
  · rw [ht]; exact .quiet _ _ s.freeReads
  · exact .writes addr v rest ha (regAt_stands hw h4) h4

/-! ## What each command leaves of every register -/

section CommandFrames

variable {s t : State} {i : Instr}

/-- Every command completes (R273). -/
theorem CommandEffect.pending (h : CommandEffect s i t) : t.pending = none := by cases h <;> rfl

/-- No command changes CTRL (R36). -/
theorem CommandEffect.ie (h : CommandEffect s i t) : t.ie = s.ie := by cases h <;> simp

theorem CommandEffect.werr (h : CommandEffect s i t) : t.status.werr = s.status.werr ∨ t.status.werr = false := by
  cases h
  case clears => exact .inr rfl
  all_goals simp

theorem CommandEffect.cerr (h : CommandEffect s i t) : t.status.cerr = s.status.cerr ∨ t.status.cerr = false := by
  cases h
  case clears => exact .inr rfl
  all_goals simp

theorem CommandEffect.stpass (h : CommandEffect s i t) :
    t.status.stpass = s.status.stpass ∨ (∃ alg, i = .selftest alg) ∨ (i = .clear ∧ t.status.stpass = false) := by
  cases h
  case selftests alg _ => exact .inr (.inl ⟨alg, rfl⟩)
  case clears => exact .inr (.inr ⟨rfl, rfl⟩)
  all_goals simp

/-- The commands that write DIGEST. -/
def finishesMessage (i : Instr) : Prop := (∃ c nb, i = .final c nb) ∨ ∃ nb, i = .hmacFinal nb

/-- DLEN, DALG and the DIGEST bytes are the same in both states (R29, R40). -/
def SameDigest (s t : State) : Prop :=
  t.status.dlen = s.status.dlen ∧ t.status.dalg = s.status.dalg ∧ ∀ i < 64, digestByte t i = digestByte s i

/-- The digest fields as CLEAR and reset leave them (R148, R300). -/
def NoDigest (t : State) : Prop := t.status.dlen = 0 ∧ t.status.dalg = .sha1 ∧ ∀ i < 64, digestByte t i = 0

/-- KEYDIG's 128 bytes fill KEY and leave DIGEST (R254). -/
theorem digestByte_keyWritten (m : Memory) {bytes : List Byte} (length : bytes.length = 128) (i : Nat) :
    Memory.read (Memory.writeList m keyBase bytes) (digestBase + i) = Memory.read m (digestBase + i) := by
  rw [Memory.read_writeList, length, if_neg (by simp only [digestBase, keyBase]; omega)]

/-- The digest fields are written by FINAL, HMAC_FINAL and CLEAR only (R29, R40). -/
theorem CommandEffect.digest (h : CommandEffect s i t) :
    SameDigest s t ∨ finishesMessage i ∨ (i = .clear ∧ NoDigest t) := by
  cases h
  case finishes c nb _ _ _ => exact .inr (.inl (.inl ⟨c, nb, rfl⟩))
  case finishesHmac nb _ _ _ _ _ _ _ => exact .inr (.inl (.inr ⟨nb, rfl⟩))
  case clears => exact .inr (.inr ⟨rfl, rfl, rfl, fun _ _ => rfl⟩)
  case movesDigest _ length _ => exact .inl ⟨rfl, rfl, fun i _ => digestByte_keyWritten s.mem length i⟩
  all_goals simp [SameDigest, digestByte]

/-- A digest is written at and above DIGEST[0] (R40). -/
theorem read_writeDigest_below (s : State) (alg : Alg) (H : Vector Word 16) {a : Nat} (ha : a < digestBase) :
    Memory.read (s.writeDigest alg H).mem a = Memory.read s.mem a := by
  rw [read_writeDigest, if_neg (by omega)]

/-- A byte of MSG or KEY is written by CLEAR, and in KEY by KEYDIG (R38, R39). -/
theorem CommandEffect.inputByte (h : CommandEffect s i t) {a : Nat} (ha : a < digestBase) :
    Memory.read t.mem a = Memory.read s.mem a ∨ (i = .keydig ∧ keyBase ≤ a) ∨ i = .clear := by
  cases h
  case clears => exact .inr (.inr rfl)
  case movesDigest bytes length k =>
    by_cases hk : keyBase ≤ a
    · exact .inr (.inl ⟨rfl, hk⟩)
    · left; rw [State.complete_mem, Memory.read_writeList, if_neg (by omega)]
  case finishes => left; simp only [State.complete_mem, read_writeDigest_below _ _ _ ha, State.setCtx_mem]
  case finishesHmac => left; simp only [State.complete_mem, read_writeDigest_below _ _ _ ha, State.setCtx_mem]
  all_goals simp

theorem CommandEffect.klen (h : CommandEffect s i t) : t.klen = s.klen ∨ i = .keydig ∨ i = .clear := by
  cases h
  case movesDigest => exact .inr (.inl rfl)
  case clears => exact .inr (.inr rfl)
  all_goals simp

theorem CommandEffect.ea (h : CommandEffect s i t) : t.ea = s.ea ∨ i = .clear := by
  cases h
  case clears => exact .inr rfl
  all_goals simp

theorem CommandEffect.er (h : CommandEffect s i t) :
    t.er = s.er ∨ (i = .eadd2 ∨ i = .eadd3 ∨ i = .eadd4 ∨ i = .eadd5 ∨ ∃ n, i = .erotr n ∨ i = .erotrx n ∨ i = .eshr n) ∨
      i = .clear := by
  cases h
  case emulates p emulation => exact .inr (.inl emulation)
  case clears => exact .inr (.inr rfl)
  all_goals simp

end CommandFrames

/-! ## What a register write leaves of every register -/

section WriteFrames

variable (s : State) (r : Reg) (v : Word)

/-- A write makes a command pending only as the issue of its own word (R23, R310). -/
theorem writeReg_pending :
    (writeReg s r v).pending = s.pending ∨ (s.busy = false ∧ r = .cmd ∧ (writeReg s r v).pending = some v) := by
  cases r <;> cases hb : s.busy <;> simp [writeReg, State.inputWrite, hb]

/-- WERR is set only by a write to an input register while BUSY = 1 (R28). -/
theorem writeReg_werr (h : (writeReg s r v).status.werr = true) :
    s.status.werr = true ∨ (s.busy = true ∧ isInputReg r = true) := by
  cases r <;> cases hb : s.busy <;> simp_all [writeReg, State.inputWrite, isInputReg]

/-- CERR is set only by a write to CMD while BUSY = 1 (R28). -/
theorem writeReg_cerr (h : (writeReg s r v).status.cerr = true) :
    s.status.cerr = true ∨ (s.busy = true ∧ r = .cmd) := by
  cases r <;> cases hb : s.busy <;> simp_all [writeReg, State.inputWrite]

/-- An EA half changes only by a write to its own register (R41). -/
theorem writeReg_ea (i : Fin 5) :
    ((writeReg s r v).ea[i].h = s.ea[i].h ∨ r = .eaH i) ∧ ((writeReg s r v).ea[i].l = s.ea[i].l ∨ r = .eaL i) := by
  obtain ⟨-, -, -, -, -, -, -, -, hea, -⟩ := writeReg_frame s r v
  rcases hea with h | ⟨j, rfl, h⟩ | ⟨j, rfl, h⟩ <;> rw [h]
  · simp
  all_goals
    by_cases hij : j = i
    · subst hij; simp
    · have : j.val ≠ i.val := fun e => hij (Fin.ext e)
      simp [this]

/-- A buffer byte changes only by a write to the word of MSG or KEY that holds it (R64). -/
theorem writeReg_read {addr : Nat} (stands : standsAt (regAt addr) addr = true) (a : Nat) :
    Memory.read (writeReg s (regAt addr) v).mem a = Memory.read s.mem a ∨
      (addr ≤ a ∧ a < addr + 4 ∧ msgBase ≤ addr ∧ addr + 4 ≤ digestBase) := by
  obtain ⟨-, -, -, -, -, -, -, -, -, hmem⟩ := writeReg_frame s (regAt addr) v
  rcases hmem with h | ⟨j, hr, h⟩ | ⟨j, hr, h⟩
  · exact .inl (by rw [h])
  all_goals
    simp only [hr, standsAt, decide_eq_true_eq] at stands
    have := j.isLt
    by_cases ha : addr ≤ a ∧ a < addr + 4
    · right; simp only [msgBase, digestBase]; omega
    · left
      rw [h, read_writeLanes, if_neg]
      simp only [msgBase, keyBase]
      omega

end WriteFrames

end Sys2Proof.Machine

/-! # Compression leaves the unused words

The words of H beyond the algorithm's state words, through one compression and through many (R34, R153). -/

namespace Sys2Proof.Machine

/-- SHA-1 writes five words (R176). -/
theorem compressSha1_unused (H : Vector Word 16) (blk : List Byte) (i : Fin 16) (hi : 5 ≤ i.val) :
    (compressSha1 H blk)[i] = H[i] := by
  obtain ⟨i, _⟩ := i
  interval_cases i <;> rfl

/-- SHA-256 writes eight words (R196). -/
theorem compressSha256_unused (H : Vector Word 16) (blk : List Byte) (i : Fin 16) (hi : 8 ≤ i.val) :
    (compressSha256 H blk)[i] = H[i] := by
  obtain ⟨i, _⟩ := i
  interval_cases i <;> rfl

/-- RIPEMD-160 writes five words (R238). -/
theorem compressRmd160_unused (H : Vector Word 16) (blk : List Byte) (i : Fin 16) (hi : 5 ≤ i.val) :
    (compressRmd160 H blk)[i] = H[i] := by
  obtain ⟨i, _⟩ := i
  interval_cases i <;> rfl

theorem compressBlock_unused (alg : Alg) (H : Vector Word 16) (blk : List Byte) (i : Fin 16)
    (hi : stateWords alg ≤ i.val) : (compressBlock alg H blk)[i] = H[i] := by
  cases alg with
  | sha1 => exact compressSha1_unused H blk i hi
  | sha256 => exact compressSha256_unused H blk i hi
  | sha512 => exact absurd i.isLt (Nat.not_lt.mpr hi)
  | rmd160 => exact compressRmd160_unused H blk i hi

theorem compressBlocks_unused (alg : Alg) (H : Vector Word 16) (blks : List (List Byte)) (i : Fin 16)
    (hi : stateWords alg ≤ i.val) : (compressBlocks alg H blks)[i] = H[i] := by
  induction blks generalizing H with
  | nil => rfl
  | cons b bs ih => rw [compressBlocks_cons, ih, compressBlock_unused alg H b i hi]

theorem ivOf_unused (alg : Alg) (i : Fin 16) (hi : stateWords alg ≤ i.val) : (ivOf alg)[i] = 0 := by
  revert i
  cases alg <;> decide

/-- Settles O33: each algorithm's compression writes its state words only. -/
theorem compressionKeepsUnusedWords : Obligations.CompressionKeepsUnusedWords := compressBlock_unused

end Sys2Proof.Machine

/-! # The invariant

Each context update keeps the context's invariant, each effect keeps each clause of the machine's, and so every step keeps the whole (R26, R27, R29, R32 to R34, R40, R310). -/

namespace Sys2Proof.Machine

/-! ## Contexts -/

theorem Context.inv_reset : Context.reset.Inv := ⟨by decide, fun _ => rfl, by decide, by decide⟩

/-- A context just started over whole blocks (R141, R252). -/
theorem startedContext_inv (alg : Alg) (hmac : Bool) (bits : Nat) (H : Vector Word 16)
    (hH : ∀ i : Fin 16, stateWords alg ≤ i.val → H[i] = 0)
    (hbits : (BitVec.ofNat 128 bits).toNat % (8 * blockBytes alg) = 0) :
    (startedContext alg hmac bits H).Inv where
  unused_zero := hH
  idle_reset h := by simp at h
  len_bytes := Nat.mod_eq_zero_of_dvd ((Dvd.intro _ rfl).trans (Nat.dvd_of_mod_eq_zero hbits))
  len_blocks _ := hbits

/-- One block more keeps whole blocks and the unused words (R142). -/
theorem Context.Inv.compressed {x : Context} (hx : x.Inv) (active : x.state = .active) (blk : List Byte) :
    Context.Inv { x with
      h := compressBlock x.alg x.h blk, len := x.len + BitVec.ofNat 128 (8 * blockBytes x.alg) } := by
  have whole : (x.len + BitVec.ofNat 128 (8 * blockBytes x.alg)).toNat % (8 * blockBytes x.alg) = 0 := by
    have := hx.len_blocks active
    rw [BitVec.toNat_add, BitVec.toNat_ofNat]
    cases halg : x.alg <;> simp only [halg, blockBytes] at this ⊢ <;> omega
  refine ⟨fun i hi => ?_, fun h => ?_, ?_, fun _ => whole⟩
  · exact (compressBlock_unused x.alg x.h blk i hi).trans (hx.unused_zero i hi)
  · simp [active] at h
  · exact Nat.mod_eq_zero_of_dvd ((Dvd.intro _ rfl).trans (Nat.dvd_of_mod_eq_zero whole))

/-- Finishing adds whole bytes and keeps the unused words (R145, R253). -/
theorem Context.Inv.finished {x : Context} (hx : x.Inv) (tail : List Byte) : (finishContext x x.alg tail).Inv where
  unused_zero i hi := (compressBlocks_unused x.alg x.h _ i hi).trans (hx.unused_zero i hi)
  idle_reset h := by simp at h
  len_bytes := by
    have := hx.len_bytes
    rw [finishContext_len, BitVec.toNat_add, BitVec.toNat_ofNat]
    omega
  len_blocks h := by simp at h

/-- HMAC_START's contexts: one block absorbed from the IV (R252). -/
theorem startedContext_inv_hmac (alg : Alg) (pad : List Byte) :
    (startedContext alg true (8 * blockBytes alg) (compressBlock alg (ivOf alg) pad)).Inv :=
  startedContext_inv _ _ _ _
    (fun i hi => (compressBlock_unused alg _ pad i hi).trans (ivOf_unused alg i hi)) (by cases alg <;> decide)

theorem State.Inv.ctx {s : State} (hs : s.Inv) (c : CtxId) : (s.ctx c).Inv := by
  cases c
  · exact hs.ctx0_inv
  · exact hs.ctx1_inv

/-- INIT, COMPRESS and FINAL write one context. -/
theorem State.Inv.ctx_setCtx {s : State} (hs : s.Inv) {c : CtxId} {x : Context} (hx : x.Inv) (d : CtxId) :
    ((s.setCtx c x).ctx d).Inv := by
  rw [State.ctx_setCtx]
  split
  · exact hx
  · exact hs.ctx d

/-- Every command leaves contexts that keep their invariant. -/
theorem CommandEffect.ctx_inv {s t : State} {i : Instr} (h : CommandEffect s i t) (hs : s.Inv) (d : CtxId) :
    (t.ctx d).Inv := by
  cases h
  case onlyCompletes => exact hs.ctx d
  case selftests => exact hs.ctx d
  case movesDigest => exact hs.ctx d
  case emulates => exact hs.ctx d
  case clears => cases d <;> exact Context.inv_reset
  case inits alg c x hx =>
    rw [State.ctx_complete]
    exact hs.ctx_setCtx (hx ▸ startedContext_inv alg _ _ _ (ivOf_unused alg) (by simp)) d
  case compresses c x active hx =>
    rw [State.ctx_complete]
    exact hs.ctx_setCtx (hx ▸ (hs.ctx c).compressed active _) d
  case finishes c nb x _ hx =>
    rw [State.ctx_complete, State.ctx_writeDigest]
    exact hs.ctx_setCtx (hx ▸ (hs.ctx c).finished _) d
  case startsHmac alg ipad opad x y hx hy =>
    cases d
    · exact hx ▸ startedContext_inv_hmac alg ipad
    · exact hy ▸ startedContext_inv_hmac alg opad
  case finishesHmac nb ready inner outer x y hx hy =>
    obtain ⟨-, -, alg_eq⟩ := (hmacPairReady_iff s).mp ready
    cases d
    · exact hx ▸ hs.ctx0_inv.finished inner
    · rw [alg_eq] at hy
      exact hy ▸ hs.ctx1_inv.finished outer

/-! ## The buffers -/

/-- The invariant's two clauses on the buffers' memory: canonical, and buffer bytes only (R38 to R40). -/
structure Memory.InBuffers (m : Memory) : Prop where
  wf : Memory.wf m
  cells : ∀ cell ∈ m, msgBase ≤ cell.1 ∧ cell.1 < bufferEnd

theorem State.Inv.inBuffers {s : State} (hs : s.Inv) : Memory.InBuffers s.mem := ⟨hs.mem_wf, hs.mem_buffers⟩

theorem Memory.inBuffers_nil : Memory.InBuffers [] := ⟨by simp [Memory.wf], by simp⟩

/-- Writing inside the buffers keeps the memory in them. -/
theorem Memory.InBuffers.writeList {m : Memory} (hm : Memory.InBuffers m) {a : Nat} {bs : List Byte} (ha : msgBase ≤ a)
    (hb : a + bs.length ≤ bufferEnd) : Memory.InBuffers (Memory.writeList m a bs) := by
  obtain ⟨hwf, hcells⟩ := hm
  refine ⟨Memory.wf_writeList bs hwf a, fun cell hc => ?_⟩
  rcases Memory.mem_writeList bs hc with h | h
  · omega
  · exact hcells cell h

theorem Memory.InBuffers.writeDigest {s : State} (hm : Memory.InBuffers s.mem) (alg : Alg) (H : Vector Word 16) :
    Memory.InBuffers (s.writeDigest alg H).mem := by
  have := digestBytes_le alg
  refine hm.writeList (by decide) ?_
  simp [digestBase, bufferEnd]
  omega

theorem CommandEffect.inBuffers {s t : State} {i : Instr} (h : CommandEffect s i t) (hm : Memory.InBuffers s.mem) :
    Memory.InBuffers t.mem := by
  cases h
  case clears => exact Memory.inBuffers_nil
  case movesDigest bytes length _ => exact hm.writeList (by decide) (by rw [length]; decide)
  case finishes => exact Memory.InBuffers.writeDigest (by simpa using hm) _ _
  case finishesHmac => exact Memory.InBuffers.writeDigest (by simpa using hm) _ _
  all_goals simpa using hm

theorem writeReg_inBuffers {s : State} (hm : Memory.InBuffers s.mem) (r : Reg) (v : Word) :
    Memory.InBuffers (writeReg s r v).mem := by
  obtain ⟨-, -, -, -, -, -, -, -, -, hmem⟩ := writeReg_frame s r v
  rcases hmem with h | ⟨j, -, h⟩ | ⟨j, -, h⟩ <;> rw [h]
  · exact hm
  all_goals
    have := j.isLt
    refine hm.writeList ?_ ?_
    · simp only [msgBase, keyBase]; omega
    · simp only [msgBase, keyBase, bufferEnd, length_bytesLE]; omega

/-! ## The digest's name and its bytes -/

/-- The invariant's clause on DLEN and DALG: the name of one digest, or none (R29). -/
def Status.DigestNamed (x : Status) : Prop :=
  (x.dlen = 0 ∧ x.dalg = .sha1) ∨ x.dlen = BitVec.ofNat 7 (digestBytes x.dalg)

theorem CommandEffect.digestNamed {s t : State} {i : Instr} (h : CommandEffect s i t) (hs : s.status.DigestNamed) :
    t.status.DigestNamed := by
  cases h
  case clears => exact .inl ⟨rfl, rfl⟩
  case finishes => exact .inr rfl
  case finishesHmac => exact .inr rfl
  all_goals simpa [Status.DigestNamed] using hs

/-- The invariant's clause on DIGEST beyond DLEN (R40). -/
def State.DigestTailZero (s : State) : Prop :=
  ∀ i, s.status.dlen.toNat ≤ i → i < 64 → Memory.read s.mem (digestBase + i) = 0

theorem State.digestTailZero_writeDigest (s : State) (alg : Alg) (H : Vector Word 16) :
    (s.writeDigest alg H).DigestTailZero := by
  intro i hi h64
  simp only [State.writeDigest_status, dlen_toNat] at hi
  rw [read_writeDigest, if_pos (by omega), if_neg (by omega)]

theorem CommandEffect.digestTailZero {s t : State} {i : Instr} (h : CommandEffect s i t) (hs : s.DigestTailZero) :
    t.DigestTailZero := by
  cases h
  case clears => exact fun _ _ _ => rfl
  case finishes => exact State.digestTailZero_writeDigest _ _ _
  case finishesHmac => exact State.digestTailZero_writeDigest _ _ _
  case movesDigest _ length _ => exact fun i hi h64 => (digestByte_keyWritten s.mem length i).trans (hs i hi h64)
  all_goals simpa [State.DigestTailZero] using hs

/-! ## The pending command -/

/-- A write keeps the pending command in CMD, with DONE and ERR clear (R26, R27, R310). -/
theorem writeReg_pendingCmd {s : State}
    (hs : ∀ v, s.pending = some v → s.cmd = v ∧ s.status.done = false ∧ s.status.err = .none) (r : Reg) (v w : Word)
    (h : (writeReg s r v).pending = some w) :
    (writeReg s r v).cmd = w ∧ (writeReg s r v).status.done = false ∧ (writeReg s r v).status.err = .none := by
  cases hb : s.busy with
  | true =>
    obtain ⟨u, hu⟩ := (State.busy_eq_true_iff s).mp hb
    obtain ⟨hcmd, hdone, herr⟩ := hs u hu
    cases r <;> simp_all [writeReg, State.inputWrite]
  | false =>
    have hp := (State.busy_eq_false_iff s).mp hb
    cases r <;> simp_all [writeReg, State.inputWrite]

/-! ## The whole machine -/

/-- The invariant does not speak of the model's own fields. -/
theorem State.Inv.withOutside {s : State} (hs : s.Inv) (agenda : List Event) (answer : Option Answer) (freeReads : Nat) :
    State.Inv { s with agenda := agenda, answer := answer, freeReads := freeReads } :=
  ⟨hs.mem_wf, hs.mem_buffers, hs.ctx0_inv, hs.ctx1_inv, hs.pending_cmd, hs.digest_named, hs.digest_tail⟩

theorem State.inv_reset : State.reset.Inv where
  mem_wf := Memory.inBuffers_nil.wf
  mem_buffers := Memory.inBuffers_nil.cells
  ctx0_inv := Context.inv_reset
  ctx1_inv := Context.inv_reset
  pending_cmd _ h := by cases h
  digest_named := .inl ⟨rfl, rfl⟩
  digest_tail _ _ _ := rfl

theorem CommandEffect.inv {s t : State} {i : Instr} (h : CommandEffect s i t) (hs : s.Inv) : t.Inv where
  mem_wf := (h.inBuffers hs.inBuffers).wf
  mem_buffers := (h.inBuffers hs.inBuffers).cells
  ctx0_inv := h.ctx_inv hs .ctx0
  ctx1_inv := h.ctx_inv hs .ctx1
  pending_cmd _ hp := by rw [h.pending] at hp; cases hp
  digest_named := h.digestNamed hs.digest_named
  digest_tail := h.digestTailZero hs.digest_tail

theorem writeReg_inv {s : State} (hs : s.Inv) {addr : Nat} (stands : standsAt (regAt addr) addr = true) (v : Word) :
    (writeReg s (regAt addr) v).Inv := by
  obtain ⟨-, hdlen, hdalg, -, hctx0, hctx1, -⟩ := writeReg_frame s (regAt addr) v
  obtain ⟨hwf, hcells⟩ := writeReg_inBuffers hs.inBuffers (regAt addr) v
  refine ⟨hwf, hcells, hctx0 ▸ hs.ctx0_inv, hctx1 ▸ hs.ctx1_inv, writeReg_pendingCmd hs.pending_cmd _ v, ?_, fun i hi h64 => ?_⟩
  · rw [hdlen, hdalg]; exact hs.digest_named
  · rw [hdlen] at hi
    rcases writeReg_read s v stands (digestBase + i) with h | h
    · rw [h]; exact hs.digest_tail i hi h64
    · omega

theorem StepEffect.inv {s t : State} (h : StepEffect s t) (hs : s.Inv) : t.Inv := by
  cases h with
  | quiet agenda answer freeReads => exact hs.withOutside agenda answer freeReads
  | performs i agenda _ _ effect => exact effect.inv (hs.withOutside agenda s.answer s.freeReads)
  | rejects agenda _ => exact (CommandEffect.onlyCompletes .nop .illegal).inv (hs.withOutside agenda s.answer s.freeReads)
  | resets rest _ => exact State.inv_reset.withOutside rest none s.freeReads
  | writes addr v rest _ stands _ =>
    exact (writeReg_inv (hs.withOutside rest s.answer s.freeReads) stands v).withOutside _ _ _

/-- Settles O55, by the effects of a step, clause by clause. -/
theorem stepKeepsTheInvariant : Obligations.StepKeepsTheInvariant := fun _ _ hs h => (step_effect h).inv hs

end Sys2Proof.Machine

/-! # Who changes what

BUSY, the registers, the contexts and the sticky bits: which step can change each (R25, R28 to R42, R82). -/

namespace Sys2Proof.Machine

/-! ## BUSY -/

theorem addr_of_cmd {addr : Nat} (stands : standsAt (regAt addr) addr = true) (h : regAt addr = .cmd) : addr = 0x004 := by
  simpa [h, standsAt] using stands

/-- BUSY is as before, or a write to CMD issued its word, or the core's turn or a reset ended the command (R25). -/
theorem StepEffect.busy {s t : State} (h : StepEffect s t) :
    t.busy = s.busy ∨ (s.busy = false ∧ ∃ v, HostWrites s 0x004 v ∧ t.pending = some v) ∨
      (t.busy = false ∧ (s.agenda = [] ∨ (∃ rest, s.agenda = .core :: rest) ∨ Resets s)) := by
  cases h with
  | quiet => exact .inl rfl
  | performs i agenda t performs effect =>
    obtain ⟨_, _, _, turn⟩ := performs
    exact .inr (.inr ⟨congrArg Option.isSome effect.pending, turn.imp_right .inl⟩)
  | rejects agenda turn => exact .inr (.inr ⟨rfl, turn.imp_right .inl⟩)
  | resets rest next => exact .inr (.inr ⟨rfl, .inr (.inr ⟨rest, next⟩)⟩)
  | writes addr v rest next stands =>
    rcases writeReg_pending { s with agenda := rest } (regAt addr) v with hp | ⟨idle, hr, hp⟩
    · exact .inl (congrArg Option.isSome hp)
    · exact .inr (.inl ⟨idle, v, ⟨rest, addr_of_cmd stands hr ▸ next⟩, hp⟩)

/-- Settles O11, by the effects of a step. -/
theorem busyChangesOnlyAtIssueCompletionReset : Obligations.BusyChangesOnlyAtIssueCompletionReset := by
  intro s t h
  rcases (step_effect h).busy with same | ⟨idle, issue⟩ | ⟨idle, ended⟩
  · rw [same]
    exact ⟨fun idle busy => absurd busy (by simp [idle]), fun busy idle => absurd busy (by simp [idle])⟩
  · exact ⟨fun _ _ => issue, by simp [idle]⟩
  · exact ⟨by simp [idle], fun _ _ => ended⟩

/-! ## STPASS and the digest -/

theorem StepEffect.stpass {s t : State} (h : StepEffect s t) :
    t.status.stpass = s.status.stpass ∨ (∃ alg, Performs s (.selftest alg)) ∨
      ((Performs s .clear ∨ Resets s) ∧ t.status.stpass = false) := by
  cases h with
  | quiet => exact .inl rfl
  | performs i agenda t performs effect =>
    rcases effect.stpass with same | ⟨alg, rfl⟩ | ⟨rfl, zero⟩
    · exact .inl same
    · exact .inr (.inl ⟨alg, performs⟩)
    · exact .inr (.inr ⟨.inl performs, zero⟩)
  | rejects => exact .inl rfl
  | resets rest next => exact .inr (.inr ⟨.inr ⟨rest, next⟩, rfl⟩)
  | writes addr v rest =>
    obtain ⟨same, -⟩ := writeReg_frame { s with agenda := rest } (regAt addr) v
    exact .inl same

/-- No register write reaches DLEN, DALG or DIGEST (R320). -/
theorem writeReg_sameDigest (s : State) {addr : Nat} (stands : standsAt (regAt addr) addr = true) (v : Word) :
    SameDigest s (writeReg s (regAt addr) v) := by
  obtain ⟨-, hdlen, hdalg, -⟩ := writeReg_frame s (regAt addr) v
  refine ⟨hdlen, hdalg, fun i _ => (writeReg_read s v stands (digestBase + i)).resolve_right ?_⟩
  omega

theorem StepEffect.digest {s t : State} (h : StepEffect s t) :
    SameDigest s t ∨ ((∃ c nb, Performs s (.final c nb)) ∨ ∃ nb, Performs s (.hmacFinal nb)) ∨
      ((Performs s .clear ∨ Resets s) ∧ NoDigest t) := by
  cases h with
  | quiet => exact .inl ⟨rfl, rfl, fun _ _ => rfl⟩
  | performs i agenda t performs effect =>
    rcases effect.digest with same | (⟨c, nb, rfl⟩ | ⟨nb, rfl⟩) | ⟨rfl, zero⟩
    · exact .inl same
    · exact .inr (.inl (.inl ⟨c, nb, performs⟩))
    · exact .inr (.inl (.inr ⟨nb, performs⟩))
    · exact .inr (.inr ⟨.inl performs, zero⟩)
  | rejects => exact .inl ⟨rfl, rfl, fun _ _ => rfl⟩
  | resets rest next => exact .inr (.inr ⟨.inr ⟨rest, next⟩, rfl, rfl, fun _ _ => rfl⟩)
  | writes addr v rest _ stands => exact .inl (writeReg_sameDigest { s with agenda := rest } stands v)

/-- Settles O56, by the effects of a step. -/
theorem digestAndSelftestWriters : Obligations.DigestAndSelftestWriters := by
  intro s t h
  refine ⟨fun changed => (step_effect h).stpass.resolve_left changed, fun changed => ?_⟩
  have : ¬SameDigest s t := by
    rintro ⟨hdlen, hdalg, hbytes⟩
    rcases changed with h | h | ⟨i, hi, h⟩
    · exact h hdlen
    · exact h hdalg
    · exact h (hbytes i hi)
  exact or_assoc.mp ((step_effect h).digest.resolve_left this)

/-! ## The input registers -/

/-- The step is CLEAR or a reset. -/
def Zeroes (s : State) : Prop := Performs s .clear ∨ Resets s

/-- A byte of MSG or KEY changes by the host's write to its word, KEYDIG in KEY, CLEAR and reset (R38, R39). -/
theorem StepEffect.inputByte {s t : State} (h : StepEffect s t) {a : Nat} (ha : a < digestBase) :
    Memory.read t.mem a = Memory.read s.mem a ∨ (∃ v, HostWrites s (4 * (a / 4)) v) ∨
      (Performs s .keydig ∧ keyBase ≤ a) ∨ Zeroes s := by
  cases h with
  | quiet => exact .inl rfl
  | performs i agenda t performs effect =>
    rcases effect.inputByte ha with same | ⟨rfl, hk⟩ | rfl
    · exact .inl same
    · exact .inr (.inr (.inl ⟨performs, hk⟩))
    · exact .inr (.inr (.inr (.inl performs)))
  | rejects => exact .inl rfl
  | resets rest next => exact .inr (.inr (.inr (.inr ⟨rest, next⟩)))
  | writes addr v rest next stands aligned =>
    rcases writeReg_read { s with agenda := rest } v stands a with same | ⟨hle, hlt, -, -⟩
    · exact .inl same
    · have : addr = 4 * (a / 4) := by omega
      exact .inr (.inl ⟨v, rest, this ▸ next⟩)

theorem StepEffect.klen {s t : State} (h : StepEffect s t) :
    t.klen = s.klen ∨ (∃ v, HostWrites s 0x010 v) ∨ Performs s .keydig ∨ Zeroes s := by
  cases h with
  | quiet => exact .inl rfl
  | performs i agenda t performs effect =>
    rcases effect.klen with same | rfl | rfl
    · exact .inl same
    · exact .inr (.inr (.inl performs))
    · exact .inr (.inr (.inr (.inl performs)))
  | rejects => exact .inl rfl
  | resets rest next => exact .inr (.inr (.inr (.inr ⟨rest, next⟩)))
  | writes addr v rest next stands =>
    obtain ⟨-, -, -, -, -, -, hklen, -⟩ := writeReg_frame { s with agenda := rest } (regAt addr) v
    rcases hklen with same | hr
    · exact .inl same
    · have : addr = 0x010 := by simpa [hr, standsAt] using stands
      exact .inr (.inl ⟨v, rest, this ▸ next⟩)

/-- An EA half changes by the host's write to its own register, CLEAR and reset (R41). -/
theorem StepEffect.ea {s t : State} (h : StepEffect s t) (i : Fin 5) :
    (t.ea[i].h = s.ea[i].h ∨ (∃ v, HostWrites s (0x240 + 8 * i.val) v) ∨ Zeroes s) ∧
      (t.ea[i].l = s.ea[i].l ∨ (∃ v, HostWrites s (0x244 + 8 * i.val) v) ∨ Zeroes s) := by
  cases h with
  | quiet => exact ⟨.inl rfl, .inl rfl⟩
  | performs j agenda t performs effect =>
    rcases effect.ea with same | rfl
    · rw [same]; exact ⟨.inl rfl, .inl rfl⟩
    · exact ⟨.inr (.inr (.inl performs)), .inr (.inr (.inl performs))⟩
  | rejects => exact ⟨.inl rfl, .inl rfl⟩
  | resets rest next => exact ⟨.inr (.inr (.inr ⟨rest, next⟩)), .inr (.inr (.inr ⟨rest, next⟩))⟩
  | writes addr v rest next stands =>
    refine (writeReg_ea { s with agenda := rest } (regAt addr) v i).imp (Or.imp_right fun hr => ?_) (Or.imp_right fun hr => ?_)
    · have : addr = 0x240 + 8 * i.val := by simpa [hr, standsAt] using stands
      exact .inl ⟨v, rest, this ▸ next⟩
    · have : addr = 0x244 + 8 * i.val := by simpa [hr, standsAt] using stands
      exact .inl ⟨v, rest, this ▸ next⟩

/-- Settles O57, by the effects of a step: each byte by its word, each EA half by its register. -/
theorem inputRegisterWriters : Obligations.InputRegisterWriters := by
  intro s t h
  have effect := step_effect h
  refine ⟨fun i hi changed => ?_, fun i hi changed => ?_, fun changed => effect.klen.resolve_left changed, fun i => ?_⟩
  · have word : 4 * ((msgBase + i) / 4) = 0x100 + 4 * (i / 4) := by simp only [msgBase]; omega
    rcases effect.inputByte (a := msgBase + i) (by simp only [msgBase, digestBase]; omega) with same | write | ⟨_, hk⟩ | zero
    · exact absurd same changed
    · exact .inl (word ▸ write)
    · simp only [msgBase, keyBase] at hk; omega
    · exact .inr zero
  · have word : 4 * ((keyBase + i) / 4) = 0x180 + 4 * (i / 4) := by simp only [keyBase]; omega
    rcases effect.inputByte (a := keyBase + i) (by simp only [keyBase, digestBase]; omega) with same | write | ⟨keydig, _⟩ | zero
    · exact absurd same changed
    · exact .inl (word ▸ write)
    · exact .inr (.inl keydig)
    · exact .inr (.inr zero)
  · obtain ⟨high, low⟩ := effect.ea i
    exact ⟨high.resolve_left, low.resolve_left⟩

/-! ## ER and CTRL -/

/-- Settles O58, by the effects of a step: no register write reaches ER, no command CTRL. -/
theorem resultAndControlWriters : Obligations.ResultAndControlWriters := by
  intro s t h
  cases step_effect h with
  | quiet => exact ⟨absurd rfl, absurd rfl⟩
  | performs i agenda t performs effect =>
    refine ⟨fun changed => ?_, fun changed => absurd effect.ie changed⟩
    rcases effect.er.resolve_left changed with (rfl | rfl | rfl | rfl | ⟨n, rfl | rfl | rfl⟩) | rfl
    · exact .inl performs
    · exact .inr (.inl performs)
    · exact .inr (.inr (.inl performs))
    · exact .inr (.inr (.inr (.inl performs)))
    · exact .inr (.inr (.inr (.inr (.inl ⟨n, .inl performs⟩))))
    · exact .inr (.inr (.inr (.inr (.inl ⟨n, .inr (.inl performs)⟩))))
    · exact .inr (.inr (.inr (.inr (.inl ⟨n, .inr (.inr performs)⟩))))
    · exact .inr (.inr (.inr (.inr (.inr (.inl performs)))))
  | rejects => exact ⟨absurd rfl, absurd rfl⟩
  | resets rest next => exact ⟨fun _ => .inr (.inr (.inr (.inr (.inr (.inr ⟨rest, next⟩))))), fun _ => .inr ⟨rest, next⟩⟩
  | writes addr v rest next stands =>
    obtain ⟨-, -, -, her, -, -, -, hie, -⟩ := writeReg_frame { s with agenda := rest } (regAt addr) v
    refine ⟨absurd her, fun changed => ?_⟩
    have hr : regAt addr = .ctrl := hie.resolve_left changed
    have : addr = 0x00C := by simpa [hr, standsAt] using stands
    exact .inl ⟨v, rest, this ▸ next⟩

/-! ## The contexts -/

/-- What a command leaves of one context: the context itself, or what INIT, HMAC_START, COMPRESS, FINAL, HMAC_FINAL or CLEAR make of it (R32, R82). -/
theorem CommandEffect.ctx {s t : State} {i : Instr} (h : CommandEffect s i t) (d : CtxId) :
    t.ctx d = s.ctx d ∨
      (∃ alg, i = .init alg d ∧ t.ctx d = startedContext alg false 0 (ivOf alg)) ∨
      (∃ alg H, i = .hmacStart alg ∧ t.ctx d = startedContext alg true (8 * blockBytes alg) H) ∨
      (i = .compress d ∧ (s.ctx d).state = .active ∧ ∃ H len, t.ctx d = { s.ctx d with h := H, len := len }) ∨
      (((∃ nb, i = .final d nb) ∨ ∃ nb, i = .hmacFinal nb) ∧ (s.ctx d).state = .active ∧
        ∃ alg tail, t.ctx d = finishContext (s.ctx d) alg tail) ∨
      (i = .clear ∧ t.ctx d = Context.reset) := by
  cases h
  case clears => cases d <;> exact .inr (.inr (.inr (.inr (.inr ⟨rfl, rfl⟩))))
  case inits alg c x hx =>
    rw [State.ctx_complete, State.ctx_setCtx]
    split_ifs with hd
    · subst hd; exact .inr (.inl ⟨alg, rfl, hx⟩)
    · exact .inl rfl
  case compresses c x active hx =>
    rw [State.ctx_complete, State.ctx_setCtx]
    split_ifs with hd
    · subst hd; exact .inr (.inr (.inr (.inl ⟨rfl, active, _, _, hx⟩)))
    · exact .inl rfl
  case finishes c nb x active hx =>
    rw [State.ctx_complete, State.ctx_writeDigest, State.ctx_setCtx]
    split_ifs with hd
    · subst hd; exact .inr (.inr (.inr (.inr (.inl ⟨.inl ⟨nb, rfl⟩, active, _, _, hx⟩))))
    · exact .inl rfl
  case startsHmac alg ipad opad x y hx hy =>
    refine .inr (.inr (.inl ?_))
    cases d
    · exact ⟨alg, _, rfl, hx⟩
    · exact ⟨alg, _, rfl, hy⟩
  case finishesHmac nb ready inner outer x y hx hy =>
    obtain ⟨⟨active0, -⟩, ⟨active1, -⟩, -⟩ := (hmacPairReady_iff s).mp ready
    refine .inr (.inr (.inr (.inr (.inl ⟨.inr ⟨nb, rfl⟩, ?_⟩))))
    cases d
    · exact ⟨active0, _, _, hx⟩
    · exact ⟨active1, _, _, hy⟩
  all_goals exact .inl (by cases d <;> rfl)

/-- Settles O59, by the effects of a step: only commands and resets reach a context. -/
theorem contextLife : Obligations.ContextLife := by
  intro s t c h changed
  cases step_effect h with
  | quiet => exact absurd (by cases c <;> rfl) changed
  | performs i agenda t performs effect =>
    have before : State.ctx { s with agenda := agenda } c = s.ctx c := by cases c <;> rfl
    have after := effect.ctx c
    rw [before] at after
    rcases after.resolve_left changed with ⟨alg, rfl, hx⟩ | ⟨alg, H, rfl, hx⟩ | ⟨rfl, active, H, len, hx⟩ |
      ⟨final, active, alg, tail, hx⟩ | ⟨rfl, hx⟩ <;> rw [hx]
    · exact .inl ⟨rfl, .inl ⟨alg, performs, rfl, rfl⟩⟩
    · exact .inl ⟨rfl, .inr (.inl ⟨alg, performs, rfl, rfl⟩)⟩
    · exact .inl ⟨active, .inr (.inr ⟨active, performs, rfl, rfl⟩)⟩
    · refine .inr (.inl ⟨rfl, active, rfl, rfl, ?_⟩)
      rcases final with ⟨nb, rfl⟩ | ⟨nb, rfl⟩
      · exact .inl ⟨nb, performs⟩
      · exact .inr ⟨nb, performs⟩
    · exact .inr (.inr ⟨rfl, .inl performs⟩)
  | rejects => exact absurd (by cases c <;> rfl) changed
  | resets rest next => exact .inr (.inr ⟨by cases c <;> rfl, .inr ⟨rest, next⟩⟩)
  | writes addr v rest =>
    obtain ⟨-, -, -, -, hctx0, hctx1, -⟩ := writeReg_frame { s with agenda := rest } (regAt addr) v
    refine absurd ?_ changed
    cases c
    · exact hctx0
    · exact hctx1

/-! ## WERR and CERR -/

/-- Settles O60, by the effects of a step: only a write that the discipline excludes sets a sticky bit. -/
theorem disciplinedHostSetsNoStickyBit : Obligations.DisciplinedHostSetsNoStickyBit := by
  intro s t e rest ha discipline h
  cases step_effect h with
  | quiet => exact ⟨id, id⟩
  | performs i agenda t performs effect =>
    refine ⟨fun set => ?_, fun set => ?_⟩
    · rcases effect.werr with same | zero
      · exact same ▸ set
      · simp [zero] at set
    · rcases effect.cerr with same | zero
      · exact same ▸ set
      · simp [zero] at set
  | rejects => exact ⟨id, id⟩
  | resets => exact ⟨fun set => absurd set Bool.false_ne_true, fun set => absurd set Bool.false_ne_true⟩
  | writes addr v rest' next stands =>
    obtain rfl : e = .write addr 4 v := (List.cons.inj (ha.symm.trans next)).1
    have waits : s.busy = true → regAt addr ≠ .cmd ∧ isInputReg (regAt addr) = false := by
      intro busy
      simpa [disciplinedEvent, busy] using discipline
    refine ⟨fun set => ?_, fun set => ?_⟩
    · rcases writeReg_werr _ _ _ set with was | ⟨busy, input⟩
      · exact was
      · obtain ⟨-, notInput⟩ := waits busy
        exact absurd input (by simp [notInput])
    · rcases writeReg_cerr _ _ _ set with was | ⟨busy, cmd⟩
      · exact was
      · obtain ⟨notCmd, -⟩ := waits busy
        exact absurd cmd notCmd

end Sys2Proof.Machine

/-! # The register window

The packed fields of STATUS and CTXc_INFO, and what a legal host access reads and writes (R24, R31, R36 to R42, R60 to R65). -/

namespace Sys2Proof.Machine

/-! ## Packed fields, by the word's number -/

theorem wordField_eq (w : Word) (hi lo : Nat) : wordField w hi lo = w.toNat / 2 ^ lo % 2 ^ (hi - lo + 1) := by
  rw [wordField, BitVec.toNat_ushiftRight, Nat.shiftRight_eq_div_pow]

/-- A one-bit field that holds a Boolean's number. -/
theorem getLsbD_eq_of_field {w : Word} {i : Nat} {b : Bool} (h : w.toNat / 2 ^ i % 2 = b.toNat) : w.getLsbD i = b := by
  rw [BitVec.getLsbD, Nat.testBit_eq_decide_div_mod_eq, h]
  cases b <;> rfl

theorem errNumber_lt (e : ErrCode) : errNumber e < 4 := by cases e <;> decide

theorem ctxStateNumber_lt (x : CtxState) : ctxStateNumber x < 3 := by cases x <;> decide

theorem algCode_lt (alg : Alg) : algCode alg < 4 := by cases alg <;> decide

/-- Each field's number fits its bits (R24). -/
theorem statusFields_lt (s : State) :
    s.busy.toNat < 2 ∧ s.status.done.toNat < 2 ∧ errNumber s.status.err < 4 ∧ s.status.werr.toNat < 2 ∧
      s.status.cerr.toNat < 2 ∧ s.status.stpass.toNat < 2 ∧ algCode s.status.dalg < 4 ∧ s.status.dlen.toNat < 128 :=
  ⟨Bool.toNat_lt _, Bool.toNat_lt _, errNumber_lt _, Bool.toNat_lt _, Bool.toNat_lt _, Bool.toNat_lt _, algCode_lt _,
    s.status.dlen.isLt⟩

theorem statusWord_toNat (s : State) :
    (statusWord s).toNat = s.busy.toNat + s.status.done.toNat * 2 ^ 1 + errNumber s.status.err * 2 ^ 4
      + s.status.werr.toNat * 2 ^ 8 + s.status.cerr.toNat * 2 ^ 9 + s.status.stpass.toNat * 2 ^ 10
      + algCode s.status.dalg * 2 ^ 12 + s.status.dlen.toNat * 2 ^ 16 := by
  have := statusFields_lt s
  rw [statusWord, BitVec.toNat_ofNat, Nat.mod_eq_of_lt]
  omega

/-- Each field's number fits its bits (R31). -/
theorem ctxFields_lt (x : Context) : ctxStateNumber x.state < 3 ∧ algCode x.alg < 4 ∧ x.hmac.toNat < 2 :=
  ⟨ctxStateNumber_lt _, algCode_lt _, Bool.toNat_lt _⟩

theorem ctxInfoWord_toNat (x : Context) :
    (ctxInfoWord x).toNat = ctxStateNumber x.state + algCode x.alg * 2 ^ 4 + x.hmac.toNat * 2 ^ 8 := by
  have := ctxFields_lt x
  rw [ctxInfoWord, BitVec.toNat_ofNat, Nat.mod_eq_of_lt]
  omega

/-- Every field of STATUS at its bits, the reserved bits 0 (R24). -/
theorem statusWord_fields (s : State) :
    let w := statusWord s
    w.getLsbD 0 = s.busy ∧ w.getLsbD 1 = s.status.done ∧ wordField w 3 2 = 0 ∧ wordField w 7 4 = errNumber s.status.err ∧
    w.getLsbD 8 = s.status.werr ∧ w.getLsbD 9 = s.status.cerr ∧ w.getLsbD 10 = s.status.stpass ∧ w.getLsbD 11 = false ∧
    wordField w 13 12 = algCode s.status.dalg ∧ wordField w 15 14 = 0 ∧ wordField w 22 16 = s.status.dlen.toNat ∧
    wordField w 31 23 = 0 := by
  have := statusFields_lt s
  have number := statusWord_toNat s
  refine ⟨getLsbD_eq_of_field ?_, getLsbD_eq_of_field ?_, ?_, ?_, getLsbD_eq_of_field ?_, getLsbD_eq_of_field ?_,
    getLsbD_eq_of_field ?_, getLsbD_eq_of_field ?_, ?_, ?_, ?_, ?_⟩
  all_goals
    simp only [wordField_eq, number, Bool.toNat_false]
    omega

/-- Every field of CTXc_INFO at its bits, the reserved bits 0 (R31). -/
theorem ctxInfoWord_fields (x : Context) :
    let w := ctxInfoWord x
    wordField w 1 0 = ctxStateNumber x.state ∧ wordField w 3 2 = 0 ∧ wordField w 5 4 = algCode x.alg ∧
    wordField w 7 6 = 0 ∧ w.getLsbD 8 = x.hmac ∧ wordField w 31 9 = 0 := by
  have := ctxFields_lt x
  have number := ctxInfoWord_toNat x
  refine ⟨?_, ?_, ?_, ?_, getLsbD_eq_of_field ?_, ?_⟩
  all_goals
    simp only [wordField_eq, number]
    omega

/-- Settles O40, by the number of CTXc_INFO. -/
theorem contextInfoFields : Obligations.ContextInfoFields :=
  fun s c => ⟨rfl, rfl, ctxInfoWord_fields (s.ctx c)⟩

/-! ## Legal accesses -/

/-- A legal read of a register that no pending command writes answers its value (R60, R321). -/
theorem hostRead_specified {s : State} {addr : Nat} (hw : addr < windowBytes) (aligned : addr % 4 = 0)
    (specified : readUnspecified s (regAt addr) = false) :
    hostRead s addr 4 = .next { s with answer := some (.data (readReg s (regAt addr))) } := by
  have : legalAccess addr 4 = true := by simp [legalAccess, aligned]
  simp [hostRead, Nat.not_le.mpr hw, this, specified]

/-- A legal write performs the register's write effect (R60). -/
theorem hostWrite_legal (s : State) {addr : Nat} (hw : addr < windowBytes) (aligned : addr % 4 = 0) (v : Word) :
    hostWrite s addr 4 v = .next { writeReg s (regAt addr) v with answer := some .ack } := by
  have : legalAccess addr 4 = true := by simp [legalAccess, aligned]
  simp [hostWrite, Nat.not_le.mpr hw, this]

/-- While BUSY = 0 every read is specified (R72, R321). -/
theorem readUnspecified_idle {s : State} (idle : s.busy = false) (r : Reg) : readUnspecified s r = false := by
  simp [readUnspecified, (State.busy_eq_false_iff s).mp idle]

/-- STATUS is written by no command, so its read is always specified (R321). -/
theorem readUnspecified_status (s : State) : readUnspecified s .status = false := by
  unfold readUnspecified
  split
  · rfl
  · split
    · rename_i i _
      cases i <;> rfl
    · rfl

/-- Settles O39, by the number of STATUS and the legal accesses to it. -/
theorem statusFieldsAndWrite : Obligations.StatusFieldsAndWrite := by
  intro s v
  have read : hostRead s 0x008 4 = .next { s with answer := some (.data (statusWord s)) } :=
    hostRead_specified (by decide) rfl (readUnspecified_status s)
  have write := hostWrite_legal s (addr := 0x008) (by decide) rfl v
  obtain ⟨busy, done, r3, err, werr, cerr, stpass, r11, dalg, r15, dlen, r31⟩ := statusWord_fields s
  refine ⟨busy, done, r3, err, werr, cerr, stpass, r11, dalg, r15, dlen, r31, rfl, rfl, read, _, write, ?_⟩
  have clear : ∀ b x : Bool, (x && !b) = if b then false else x := by decide
  simp only [← clear]
  rfl

/-- Settles O47: the write to CMD is the issue. -/
theorem cmdWriteIssues : Obligations.CmdWriteIssues := by
  intro s v idle
  have issued : writeReg s .cmd v = s.issue v := by simp [writeReg, idle]
  have write : hostWrite s 0x004 4 v = .next { s.issue v with answer := some .ack } :=
    issued ▸ hostWrite_legal s (by decide) rfl v
  exact ⟨_, write, rfl, rfl⟩

/-! ## The register map as it is read -/

theorem regAt_spare (i : Fin 16) : regAt (0x0C0 + 4 * i.val) = .reserved := by revert i; decide

theorem regAt_tail (k : Fin 100) : regAt (0x270 + 4 * k.val) = .reserved := by revert k; decide

/-- Settles O41: each offset's register by the map, and the idle read of it. -/
theorem registerMapReads : Obligations.RegisterMapReads := by
  intro s idle answers
  have reads {addr : Nat} {r : Reg} (hr : regAt addr = r) (hw : addr < 1024) (h4 : addr % 4 = 0) :
      answers addr (readReg s r) := hr ▸ hostRead_specified hw h4 (readUnspecified_idle idle _)
  refine ⟨reads rfl (by decide) rfl, reads rfl (by decide) rfl, ?_, reads rfl (by decide) rfl, reads rfl (by decide) rfl,
    reads rfl (by decide) rfl, reads rfl (by decide) rfl, reads rfl (by decide) rfl, reads rfl (by decide) rfl,
    fun k hk => ⟨reads (regAt_len0 ⟨k, hk⟩) ?_ ?_, reads (regAt_len1 ⟨k, hk⟩) ?_ ?_⟩,
    fun i => ⟨reads (regAt_h0 i) ?_ ?_, reads (regAt_h1 i) ?_ ?_, reads (regAt_spare i) ?_ ?_⟩,
    fun i => ⟨reads (regAt_eaH i) ?_ ?_, reads (regAt_eaL i) ?_ ?_⟩,
    fun k hk => reads (regAt_tail ⟨k, hk⟩) ?_ ?_⟩
  · have : ctrlWord s = if s.ie then 1 else 0 := by cases h : s.ie <;> simp [ctrlWord, h]
    exact this ▸ reads rfl (by decide) rfl
  all_goals omega

/-! ## Idle writes -/

/-- The input registers' offsets: KEYLEN, MSG and KEY, EA (R20, R28). -/
theorem addr_of_inputReg {r : Reg} {addr : Nat} (stands : standsAt r addr = true) (input : isInputReg r = true) :
    addr = 0x010 ∨ (0x100 ≤ addr ∧ addr < 0x200) ∨ (0x240 ≤ addr ∧ addr < 0x268) := by
  cases r with
  | keylen | msg | key | eaH | eaL => simp only [standsAt, decide_eq_true_eq] at stands; omega
  | _ => cases input

/-- A register that is neither an input register nor CMD, STATUS or CTRL ignores its write (R320). -/
theorem writeReg_readOnly (s : State) {r : Reg} (v : Word) (input : isInputReg r = false) (cmd : r ≠ .cmd)
    (status : r ≠ .status) (ctrl : r ≠ .ctrl) : writeReg s r v = s := by
  cases r <;> simp_all [isInputReg, writeReg]

/-- The offsets of the read-only registers and the reserved ones: no write there has an effect (R20, R320). -/
theorem writeReg_ignored (s : State) (v : Word) {addr : Nat} (aligned : addr % 4 = 0)
    (readOnly : addr = 0x000 ∨ (0x014 ≤ addr ∧ addr < 0x100) ∨ (0x200 ≤ addr ∧ addr < 0x240) ∨
      (0x268 ≤ addr ∧ addr < 0x400)) : writeReg s (regAt addr) v = s := by
  have stands := regAt_stands (addr := addr) (by simp only [windowBytes]; omega) aligned
  have elsewhere {r : Reg} {a : Nat} (ha : standsAt r addr = decide (addr = a)) (hlow : 0x000 < a) (hhigh : a < 0x014) :
      regAt addr ≠ r := by
    rintro rfl
    rw [ha, decide_eq_true_eq] at stands
    omega
  refine writeReg_readOnly s v ?_ (elsewhere rfl (by decide) (by decide)) (elsewhere rfl (by decide) (by decide))
    (elsewhere rfl (by decide) (by decide))
  rw [Bool.eq_false_iff]
  intro input
  have := addr_of_inputReg stands input
  omega

theorem ctrlWord_lt (s : State) : (ctrlWord s).toNat < 2 := by
  cases h : s.ie <;> simp [ctrlWord, h]

theorem keylenWord_lt (s : State) : (keylenWord s).toNat < 256 := by
  have := s.klen.isLt
  rw [keylenWord, BitVec.toNat_ofNat]
  omega

/-- Settles O43: each register's own write, and none for the others. -/
theorem controlAndOperandWrites : Obligations.ControlAndOperandWrites := by
  intro s v idle writes
  have write {addr : Nat} {r : Reg} {u : State} (hr : regAt addr = r) (hw : addr < 1024) (aligned : addr % 4 = 0)
      (hu : writeReg s r v = u) : writes addr u := by
    subst hr hu
    exact ⟨_, hostWrite_legal s hw aligned v, rfl⟩
  have klen : v.extractLsb' 0 8 = BitVec.ofNat 8 v.toNat := by simp [BitVec.extractLsb']
  refine ⟨write rfl (by decide) rfl rfl, write rfl (by decide) rfl ?_, ctrlWord_lt s, keylenWord_lt s,
    fun i => ⟨write (regAt_eaH i) (by omega) (by omega) ?_, write (regAt_eaL i) (by omega) (by omega) ?_⟩,
    fun addr aligned readOnly => write rfl (by omega) aligned (writeReg_ignored s v aligned readOnly)⟩
  · rw [← klen]; exact State.inputWrite_idle idle _
  · exact State.inputWrite_idle idle _
  · exact State.inputWrite_idle idle _

/-! ## Byte lanes -/

/-- The lanes of four buffer bytes as a sum, the first byte the least significant (R64). -/
theorem readLanes_eq (m : Memory) (a : Nat) :
    readLanes m a = BitVec.ofNat 32 ((Memory.read m a).toNat + (Memory.read m (a + 1)).toNat * 2 ^ 8 +
      (Memory.read m (a + 2)).toNat * 2 ^ 16 + (Memory.read m (a + 3)).toNat * 2 ^ 24) := rfl

/-- Every word from 0x100 to 0x23C reads the four buffer bytes at its own offset (R38 to R40, R64). -/
theorem readReg_buffer (s : State) {k : Nat} (hk : k < 80) :
    readReg s (regAt (0x100 + 4 * k)) = readLanes s.mem (0x100 + 4 * k) := by
  rcases Nat.lt_or_ge k 32 with h | h
  · rw [regAt_msg ⟨k, h⟩]; rfl
  rcases Nat.lt_or_ge k 64 with h' | h'
  · obtain ⟨j, rfl⟩ := Nat.exists_eq_add_of_le h
    rw [show 0x100 + 4 * (32 + j) = 0x180 + 4 * j by omega, regAt_key ⟨j, by omega⟩]; rfl
  · obtain ⟨j, rfl⟩ := Nat.exists_eq_add_of_le h'
    rw [show 0x100 + 4 * (64 + j) = 0x200 + 4 * j by omega, regAt_digest ⟨j, by omega⟩]; rfl

/-- An idle write to a word of a buffer sets its four bytes and nothing else (R64). -/
theorem hostWrite_lanes (s : State) (v : Word) {a : Nat} (hw : a < windowBytes) (aligned : a % 4 = 0)
    (lanes : writeReg s (regAt a) v = { s with mem := writeLanes s.mem a v }) :
    ∃ t, hostWrite s a 4 v = .next t ∧
      (∀ j < 4, Memory.read t.mem (a + j) = v.extractLsb' (8 * j) 8) ∧
      (∀ b, ¬(a ≤ b ∧ b < a + 4) → Memory.read t.mem b = Memory.read s.mem b) ∧
      t = { s with mem := t.mem, answer := t.answer } := by
  refine ⟨_, hostWrite_legal s hw aligned v, fun j hj => ?_, fun b hb => ?_, ?_⟩ <;> rw [lanes]
  · rw [read_writeLanes, if_pos (by omega), Nat.add_sub_cancel_left]
  · rw [read_writeLanes, if_neg hb]

/-- Settles O42: the lanes of each word, written and read. -/
theorem bufferByteLanes : Obligations.BufferByteLanes := by
  intro s v idle
  refine ⟨fun i hi => ⟨hostWrite_lanes s v (by simp only [windowBytes]; omega) (by omega) ?_,
    hostWrite_lanes s v (by simp only [windowBytes]; omega) (by omega) ?_⟩, fun k hk => ?_⟩
  · rw [regAt_msg ⟨i, hi⟩]; exact State.inputWrite_idle idle _
  · rw [regAt_key ⟨i, hi⟩]; exact State.inputWrite_idle idle _
  · rw [hostRead_specified (by simp only [windowBytes]; omega) (by omega) (readUnspecified_idle idle _),
      readReg_buffer s hk, readLanes_eq]

end Sys2Proof.Machine

/-! # HMAC_START and the key

The pads read KEY below KEYLEN only (R39, R251, R252). -/

namespace Sys2Proof.Machine

/-- K0 is the same for two memories that agree on KEY[0..KLEN) (R251). -/
theorem keyBlock_congr (s : State) {m : Memory}
    (agree : ∀ i < s.klen.toNat, Memory.read m (keyBase + i) = Memory.read s.mem (keyBase + i)) (B : Nat) :
    keyBlock { s with mem := m } B = keyBlock s B := by
  refine List.map_congr_left fun i _ => ?_
  by_cases hi : i < s.klen.toNat
  · simp only [hi, if_true]; exact agree i hi
  · simp only [hi, if_false]

/-- Starting both contexts does not touch the buffers (R252). -/
theorem startBoth_withMem (s : State) (m : Memory) (x y : Context) :
    succeed ((State.setCtx { s with mem := m } .ctx0 x).setCtx .ctx1 y) =
      .next { ((s.setCtx .ctx0 x).setCtx .ctx1 y).complete .none with mem := m } := rfl

/-- HMAC_START reads the memory through K0 only (R252). -/
theorem execHmacStart_congr (alg : Alg) (s t : State) {m : Memory}
    (key : keyBlock { s with mem := m } (blockBytes alg) = keyBlock s (blockBytes alg))
    (h : execHmacStart alg s = .next t) : execHmacStart alg { s with mem := m } = .next { t with mem := m } := by
  rcases execHmacStart_cases h with ⟨hk, rfl⟩ | ⟨hk, rfl⟩
  · simp only [execHmacStart, hk, if_true, raiseError_eq_next, State.complete]
  · simp only [execHmacStart, Nat.not_lt.mpr hk, if_false, innerPad, outerPad, key]
    exact startBoth_withMem s m _ _

/-- HMAC_START always ends with a next state. -/
theorem execHmacStart_next (alg : Alg) (s : State) : ∃ t, execHmacStart alg s = .next t := by
  unfold execHmacStart
  dsimp only
  split
  · exact ⟨_, rfl⟩
  · exact ⟨_, rfl⟩

/-- Settles O24: the pads are the same, so the meanings are. -/
theorem hmacStartIgnoresBytesBeyondTheKey : Obligations.HmacStartIgnoresBytesBeyondTheKey := by
  intro alg s m agree
  obtain ⟨t, ht⟩ := execHmacStart_next alg s
  exact ⟨t, _, ht, execHmacStart_congr alg s t (keyBlock_congr s agree _) ht, rfl⟩

end Sys2Proof.Machine

/-! # Stops, reads and a pending command's inputs

Which steps stop the machine, what a host access answers, and what stands while a command is pending (R60 to R62, R72, R76, R311, R321). -/

namespace Sys2Proof.Machine

/-! ## Illegal accesses -/

/-- An access of another size or at another offset than R61 allows is illegal. -/
theorem legalAccess_eq_false {addr size : Nat} (illegal : size ≠ 4 ∨ addr % 4 ≠ 0) : legalAccess addr size = false := by
  rcases illegal with h | h <;> simp [legalAccess, h]

/-- Settles O44: both accesses answer the bus error of an illegal access. -/
theorem busErrorChangesNothing : Obligations.BusErrorChangesNothing := by
  intro s addr size v inside illegal
  have hw : ¬windowBytes ≤ addr := Nat.not_le.mpr inside
  simp [hostRead, hostWrite, hw, legalAccess_eq_false illegal]

/-! ## The step that a coming event takes -/

/-- With an event to come, the step performs it (R17). -/
theorem step_event {s : State} {e : Event} {rest : List Event} (next : s.agenda = e :: rest) :
    step s = runEvent e { s with agenda := rest } := by
  simp [step, nextTurn, next]

/-- Settles O45, by the cases of a host read. -/
theorem readsChangeNothing : Obligations.ReadsChangeNothing := by
  intro s t addr size rest next h
  have read : hostRead { s with agenda := rest } addr size = .next t := (step_event next).symm.trans h
  obtain ⟨-, ⟨-, rfl⟩ | ⟨-, -, rfl⟩ | ⟨-, -, rfl⟩⟩ := hostRead_cases read <;> rfl

/-! ## Which steps stop -/

/-- Every command's meaning ends with a next state: it completes, with or without an error (R270, R273). -/
theorem exec_next (i : Instr) (s : State) : ∃ t, exec i s = .next t := by
  cases i with
  | compress c =>
    dsimp only [exec, execCompress]
    split <;> exact ⟨_, rfl⟩
  | final c nb =>
    dsimp only [exec, execFinal]
    split
    · exact ⟨_, rfl⟩
    · split <;> exact ⟨_, rfl⟩
  | hmacStart alg => exact execHmacStart_next alg s
  | hmacFinal nb =>
    dsimp only [exec, execHmacFinal]
    split
    · exact ⟨_, rfl⟩
    · split <;> exact ⟨_, rfl⟩
  | keydig =>
    dsimp only [exec, execKeydig]
    split <;> exact ⟨_, rfl⟩
  | _ => exact ⟨_, rfl⟩

/-- The core's turn always ends with a next state, on a legal word and on an illegal one (R270, R312). -/
theorem coreTurn_next (s : State) : ∃ t, coreTurn s = .next t := by
  cases pending : s.pending with
  | none => exact ⟨s, coreTurn_idle pending⟩
  | some v =>
    rw [coreTurn_pending pending, performWord]
    split
    · exact exec_next _ s
    · exact ⟨_, rfl⟩

/-- A read of the window never stops the machine (R60, R62). -/
theorem hostRead_next (s : State) {addr : Nat} (inside : addr < windowBytes) (size : Nat) :
    ∃ t, hostRead s addr size = .next t := by
  rw [hostRead, if_neg (Nat.not_le.mpr inside)]
  split
  · exact ⟨_, rfl⟩
  · split <;> exact ⟨_, rfl⟩

/-- A write to the window never stops the machine (R60, R62). -/
theorem hostWrite_next (s : State) {addr : Nat} (inside : addr < windowBytes) (size : Nat) (v : Word) :
    ∃ t, hostWrite s addr size v = .next t := by
  rw [hostWrite, if_neg (Nat.not_le.mpr inside)]
  split <;> exact ⟨_, rfl⟩

/-- Settles O8: each event either answers a next state or is an access outside the window. -/
theorem onlyAccessesOutsideTheWindowStop : Obligations.OnlyAccessesOutsideTheWindowStop := by
  intro s
  cases next : s.agenda with
  | nil =>
    have : step s = coreTurn s := by simp [step, nextTurn, next]
    exact .inl (this ▸ coreTurn_next s)
  | cons e rest =>
    rw [step_event next]
    cases e with
    | core => exact .inl (coreTurn_next _)
    | reset => exact .inl ⟨_, rfl⟩
    | read addr size =>
      rcases Nat.lt_or_ge addr windowBytes with inside | outside
      · exact .inl (hostRead_next _ inside size)
      · exact .inr ⟨addr, size, rest, outside, if_pos outside, .inl rfl⟩
    | write addr size v =>
      rcases Nat.lt_or_ge addr windowBytes with inside | outside
      · exact .inl (hostWrite_next _ inside size v)
      · exact .inr ⟨addr, size, rest, outside, if_pos outside, .inr ⟨v, rfl⟩⟩

/-! ## A pending command's inputs -/

/-- While BUSY = 1 a register write reaches STATUS and CTRL only: the others are dropped or ignored (R320). -/
theorem writeReg_busy {s : State} (busy : s.busy = true) (r : Reg) (v : Word) :
    ∃ status ie, writeReg s r v = { s with status := status, ie := ie } := by
  cases r with
  | cmd => exact ⟨_, _, if_pos busy⟩
  | keylen | msg | key | eaH | eaL => exact ⟨_, _, State.inputWrite_busy busy _⟩
  | _ => exact ⟨_, _, rfl⟩

/-- Settles O48: the only steps that leave a command pending are quiet ones and writes while BUSY = 1. -/
theorem inputsStandWhileBusy : Obligations.InputsStandWhileBusy := by
  intro s t busy h still
  cases step_effect h with
  | quiet => exact ⟨rfl, rfl, rfl, rfl, rfl, rfl, rfl, rfl, rfl, rfl, rfl⟩
  | performs i agenda t performs effect =>
    rw [(State.busy_eq_false_iff t).mpr effect.pending] at still
    cases still
  | rejects => cases still
  | resets => cases still
  | writes addr v rest =>
    obtain ⟨hstpass, hdlen, hdalg, -⟩ := writeReg_frame { s with agenda := rest } (regAt addr) v
    obtain ⟨status, ie, stand⟩ := writeReg_busy (s := { s with agenda := rest }) busy (regAt addr) v
    rw [stand] at hstpass hdlen hdalg ⊢
    exact ⟨rfl, rfl, rfl, rfl, rfl, rfl, hdlen, hdalg, hstpass, rfl, rfl⟩

/-! ## Specified reads -/

/-- A read of a register that no command writes is specified (R321). -/
theorem readUnspecified_unwritten (s : State) {r : Reg} (unwritten : ∀ i, writesReg i r = false) :
    readUnspecified s r = false := by
  unfold readUnspecified
  split
  · rfl
  · split
    · exact unwritten _
    · rfl

/-- While an illegal word is pending every read is specified (R321). -/
theorem readUnspecified_illegal {s : State} {v : Word} {e : Illegal} (pending : s.pending = some v)
    (illegal : decode v = .error e) (r : Reg) : readUnspecified s r = false := by
  simp [readUnspecified, pending, illegal]

/-- No command's rule writes ID, CMD, STATUS or CTRL, the registers up to 0x00C (R20, R321). -/
theorem writesReg_low {addr : Nat} (low : addr ≤ 0x00C) (aligned : addr % 4 = 0) (i : Instr) :
    writesReg i (regAt addr) = false := by
  obtain rfl | rfl | rfl | rfl : addr = 0x000 ∨ addr = 0x004 ∨ addr = 0x008 ∨ addr = 0x00C := by omega
  all_goals cases i <;> rfl

/-- Settles O50: in each case the read is specified. -/
theorem specifiedReadsAnswerTheRegister : Obligations.SpecifiedReadsAnswerTheRegister := by
  intro s addr inside aligned specified
  refine hostRead_specified inside aligned ?_
  rcases specified with idle | low | ⟨v, e, pending, illegal⟩
  · exact readUnspecified_idle idle _
  · exact readUnspecified_unwritten s (writesReg_low low aligned)
  · exact readUnspecified_illegal pending illegal _

/-! ## Digest lengths and the RIPEMD-160 vectors -/

/-- digest(alg, m) has D bytes (R68, R155). -/
@[simp] theorem length_digestOf (alg : Alg) (m : List Byte) : (digestOf alg m).length = digestBytes alg :=
  length_serialize alg _

/-- Settles O36: the length of the serialised state, and the four vectors computed. -/
theorem digestHasItsLength : Obligations.DigestHasItsLength :=
  ⟨fun m => ⟨length_digestOf .sha1 m, length_digestOf .sha256 m, length_digestOf .sha512 m, length_digestOf .rmd160 m⟩,
    by decide +kernel, by decide +kernel, by decide +kernel, by decide +kernel⟩

end Sys2Proof.Machine

/-! # The command encoding

Fields of a word and their places in it, the rows of the opcode map, and the two directions of the round trip (R91 to R99). -/

namespace Sys2Proof

open Machine (wordField_eq)
open Laws
open Laws.RowSelected (nameOf)

/-! ## Fields -/

/-- The bits of `v[hi:lo]`. -/
def fieldMask (hi lo : Nat) : Word := BitVec.ofNat 32 (2 ^ (hi - lo + 1) - 1) <<< lo

theorem wordField_lt (v : Word) (hi lo : Nat) : wordField v hi lo < 2 ^ (hi - lo + 1) :=
  Nat.mod_lt _ (Nat.two_pow_pos _)

theorem testBit_wordField (v : Word) (hi lo j : Nat) :
    (wordField v hi lo).testBit j = (decide (j < hi - lo + 1) && v.getLsbD (lo + j)) := by
  rw [wordField, Nat.testBit_mod_two_pow, BitVec.testBit_toNat, BitVec.getLsbD_ushiftRight]

theorem getLsbD_fieldMask (hi lo i : Nat) :
    (fieldMask hi lo).getLsbD i = (decide (i < 32) && (decide (lo ≤ i) && decide (i - lo < hi - lo + 1))) := by
  rw [fieldMask, BitVec.getLsbD_shiftLeft, BitVec.getLsbD_ofNat, Nat.testBit_two_pow_sub_one]
  grind

/-- A field put back in its place is the word under the field's mask. -/
theorem wordField_placed (v : Word) (hi lo : Nat) :
    BitVec.ofNat 32 (wordField v hi lo) <<< lo = v &&& fieldMask hi lo := by
  refine BitVec.eq_of_getLsbD_eq fun i hi32 => ?_
  rw [BitVec.getLsbD_shiftLeft, BitVec.getLsbD_ofNat, testBit_wordField, BitVec.getLsbD_and, getLsbD_fieldMask]
  by_cases h : i < lo
  · simp [h, Nat.not_le.mpr h]
  · have : lo + (i - lo) = i := by omega
    grind

/-- A field is read from the bits under its mask. -/
theorem wordField_and_fieldMask (v : Word) (hi lo : Nat) : wordField (v &&& fieldMask hi lo) hi lo = wordField v hi lo := by
  refine Nat.eq_of_testBit_eq fun j => ?_
  rw [testBit_wordField, testBit_wordField, BitVec.getLsbD_and, getLsbD_fieldMask, Nat.add_sub_cancel_left]
  have := BitVec.getLsbD_of_ge v (lo + j)
  grind

theorem wordField_eq_iff {v w : Word} {hi lo : Nat} :
    wordField v hi lo = wordField w hi lo ↔ v &&& fieldMask hi lo = w &&& fieldMask hi lo := by
  constructor <;> intro h
  · rw [← wordField_placed, ← wordField_placed, h]
  · rw [← wordField_and_fieldMask v, h, wordField_and_fieldMask]

theorem wordField_or (v w : Word) (hi lo : Nat) :
    wordField (v ||| w) hi lo = wordField v hi lo ||| wordField w hi lo := by
  rw [wordField, BitVec.ushiftRight_or_distrib, BitVec.toNat_or, Nat.or_mod_two_pow]
  rfl

/-- An operand placed in clear bits is what its field reads. -/
theorem wordField_or_placed {w : Word} {n hi lo : Nat} (clear : wordField w hi lo = 0) (fits : n < 2 ^ (hi - lo + 1))
    (inside : hi < 32) (ordered : lo ≤ hi) : wordField (w ||| BitVec.ofNat 32 n <<< lo) hi lo = n := by
  rw [wordField_or, clear, Nat.zero_or]
  refine Nat.eq_of_testBit_eq fun j => ?_
  rw [testBit_wordField, BitVec.getLsbD_shiftLeft, BitVec.getLsbD_ofNat, Nat.add_sub_cancel_left]
  by_cases hj : j < hi - lo + 1
  · have : lo + j < 32 := by omega
    grind
  · have : n.testBit j = false := Nat.testBit_lt_two_pow (fits.trans_le (Nat.pow_le_pow_right (by decide) (by omega)))
    simp [hj, this]

/-- Bits placed above a field are not read by it. -/
theorem wordField_or_above (w x : Word) {k hi lo : Nat} (above : hi < k) (ordered : lo ≤ hi) :
    wordField (w ||| x <<< k) hi lo = wordField w hi lo := by
  refine Nat.eq_of_testBit_eq fun j => ?_
  rw [testBit_wordField, testBit_wordField, BitVec.getLsbD_or, BitVec.getLsbD_shiftLeft]
  grind

@[simp] theorem ctxOfCode_ctxCode (c : CtxId) : ctxOfCode (ctxCode c) = c := by cases c <;> rfl

theorem algCode_algOfCode {k : Nat} (h : k < 4) : algCode (algOfCode k) = k := by interval_cases k <;> rfl

theorem ctxCode_ctxOfCode {k : Nat} (h : k < 2) : ctxCode (ctxOfCode k) = k := by interval_cases k <;> rfl

/-! ## Rows -/

theorem exists_row_of_name (m : Mnemonic) : ∃ r ∈ opRows, r.name = m := by cases m <;> decide

theorem decode_ok {v : Word} {i : Instr} (h : decode v = .ok i) :
    ∃ r ∈ opRows, selectsRow v r = true ∧ i = assembleInstr r.name v := by
  unfold decode at h
  split at h
  case h_1 r found =>
    cases h
    exact ⟨r, List.mem_of_find?_eq_some found, List.find?_some found, rfl⟩
  case h_2 => cases h

theorem decode_error_iff (v : Word) : (∃ e, decode v = .error e) ↔ ∀ r ∈ opRows, ¬ selectsRow v r = true := by
  rw [← List.find?_eq_none, decode]
  cases opRows.find? (selectsRow v) <;> simp

/-- A word that selects the row of one name decodes to the command of that name. -/
theorem decode_of_selects {v : Word} {m : Mnemonic} (selects : ∀ r ∈ opRows, selectsRow v r = true ↔ r.name = m) :
    decode v = .ok (assembleInstr m v) := by
  obtain ⟨r, hr, name⟩ := exists_row_of_name m
  cases hd : decode v with
  | error e => exact absurd ((selects r hr).mpr name) ((decode_error_iff v).mp ⟨e, hd⟩ r hr)
  | ok i =>
    obtain ⟨q, hq, selected, rfl⟩ := decode_ok hd
    rw [(selects q hq).mp selected]

/-! ## From the command to the word and back -/

/-- The family RowSelected, for every command. -/
theorem rowSelected (i : Instr) : RowSelected.Statement i :=
  match i with
  | .nop => RowSelected.nop
  | .init alg c => RowSelected.init alg c
  | .compress c => RowSelected.compress c
  | .final c nb => RowSelected.final c nb
  | .selftest alg => RowSelected.selftest alg
  | .clear => RowSelected.clear
  | .hmacStart alg => RowSelected.hmacStart alg
  | .hmacFinal nb => RowSelected.hmacFinal nb
  | .keydig => RowSelected.keydig
  | .eadd2 => RowSelected.eadd2
  | .eadd3 => RowSelected.eadd3
  | .eadd4 => RowSelected.eadd4
  | .eadd5 => RowSelected.eadd5
  | .erotr n => RowSelected.erotr n
  | .erotrx n => RowSelected.erotrx n
  | .eshr n => RowSelected.eshr n

/-- The operand fields of a well-formed command's word hold its operands (R96). -/
theorem assembleInstr_encode {i : Instr} (wf : i.wellFormed = true) : assembleInstr (nameOf i) (encode i) = i := by
  cases i
  case init alg c => cases alg <;> cases c <;> rfl
  case compress c => cases c <;> rfl
  case selftest alg => cases alg <;> rfl
  case hmacStart alg => cases alg <;> rfl
  case final c nb =>
    have ctx : wordField (encode (.final c nb)) 12 12 = ctxCode c :=
      (wordField_or_above _ _ (by decide) (by decide)).trans (by cases c <;> rfl)
    have count : wordField (encode (.final c nb)) 23 16 = nb :=
      wordField_or_placed (by cases c <;> rfl) (of_decide_eq_true wf) (by decide) (by decide)
    simp only [nameOf, assembleInstr, ctx, count, ctxOfCode_ctxCode]
  case hmacFinal | erotr | erotrx | eshr =>
    refine congrArg _ (wordField_or_placed rfl ?_ (by decide) (by decide))
    exact of_decide_eq_true wf
  all_goals rfl

/-- Settles O1: the word selects the command's own row, and the row's fields hold the operands. -/
theorem decodeOfEncode : Obligations.DecodeOfEncode := fun i wf =>
  (decode_of_selects (rowSelected i wf)).trans (congrArg Except.ok (assembleInstr_encode wf))

/-! ## From the word to the command and back -/

/-- A field's value fits the operand it becomes (R94, R95). -/
theorem assembleInstr_wellFormed (m : Mnemonic) (v : Word) : (assembleInstr m v).wellFormed = true := by
  cases m
  case final | hmacFinal => exact decide_eq_true (wordField_lt v 23 16)
  case erotr | erotrx | eshr => exact decide_eq_true (wordField_lt v 12 8)
  all_goals rfl

/-- The encoder puts back the row's code and every bit that the row's mask leaves to operands (R97). -/
theorem encode_assembleInstr (v : Word) {r : OpRow} (hr : r ∈ opRows) :
    encode (assembleInstr r.name v) = r.code ||| (v &&& ~~~ r.mask) := by
  have alg : BitVec.ofNat 32 (algCode (algOfCode (wordField v 9 8))) <<< 8 = v &&& fieldMask 9 8 := by
    rw [algCode_algOfCode (wordField_lt v 9 8), wordField_placed]
  have ctx : BitVec.ofNat 32 (ctxCode (ctxOfCode (wordField v 12 12))) <<< 12 = v &&& fieldMask 12 12 := by
    rw [ctxCode_ctxOfCode (wordField_lt v 12 12), wordField_placed]
  fin_cases hr <;>
    simp only [assembleInstr, encode, alg, ctx, wordField_placed, BitVec.or_assoc, ← BitVec.and_or_distrib_left]
  all_goals simp [fieldMask]

/-- Settles O2: a selected row's code is the word under the row's mask, and the operands are the rest of it. -/
theorem encodeOfDecode : Obligations.EncodeOfDecode := by
  intro v i h
  obtain ⟨r, hr, selected, rfl⟩ := decode_ok h
  have code : v &&& r.mask = r.code := eq_of_beq selected
  refine ⟨assembleInstr_wellFormed r.name v, ?_⟩
  rw [encode_assembleInstr v hr, ← code, ← BitVec.and_or_distrib_left, BitVec.or_not_self,
    BitVec.and_allOnes]

/-! ## The illegal words -/

/-- Two words are equal when they are equal under a mask and outside it. -/
theorem eq_iff_masked (v w f : Word) : v = w ↔ v &&& f = w &&& f ∧ v &&& ~~~ f = w &&& ~~~ f := by
  refine ⟨fun h => h ▸ ⟨rfl, rfl⟩, fun ⟨inside, outside⟩ => ?_⟩
  rw [← BitVec.and_allOnes (x := v), ← BitVec.or_not_self f, BitVec.and_or_distrib_left, inside, outside,
    ← BitVec.and_or_distrib_left, BitVec.or_not_self, BitVec.and_allOnes]

/-- A match under a mask is a match of one field that the mask covers and of the rest of the mask. -/
theorem and_eq_iff_field (v c : Word) {m : Word} {hi lo : Nat} (covers : m &&& fieldMask hi lo = fieldMask hi lo) :
    v &&& m = c ↔ wordField v hi lo = wordField c hi lo ∧
      v &&& (m &&& ~~~ fieldMask hi lo) = c &&& ~~~ fieldMask hi lo := by
  rw [eq_iff_masked _ c (fieldMask hi lo), BitVec.and_assoc, BitVec.and_assoc, covers, wordField_eq_iff]

/-- A word selects a row when it has the row's OP and matches the row above OP (R91, R97). -/
theorem selectsRow_iff (v : Word) {r : OpRow} (hr : r ∈ opRows) :
    selectsRow v r = true ↔ wordField v 7 0 = wordField r.code 7 0 ∧
      v &&& (r.mask &&& 0xFFFFFF00) = r.code &&& 0xFFFFFF00 :=
  beq_iff_eq.trans (and_eq_iff_field v r.code
    ((by decide : ∀ r ∈ opRows, r.mask &&& fieldMask 7 0 = fieldMask 7 0) r hr))

/-- A word is illegal when every row of its OP asks for something else above OP (R98). -/
theorem decode_error_iff_op (v : Word) : (∃ e, decode v = .error e) ↔
    ∀ r ∈ opRows, wordField v 7 0 = wordField r.code 7 0 → v &&& (r.mask &&& 0xFFFFFF00) ≠ r.code &&& 0xFFFFFF00 :=
  (decode_error_iff v).trans (forall₂_congr fun _ hr => (not_congr (selectsRow_iff v hr)).trans not_and)

/-- What an EADD row asks above OP: its own K, and no reserved bit (R95). -/
theorem addendRow_iff (v : Word) {c : Word} {k : Nat} (count : wordField c 18 16 = k) (rest : c &&& 0xFFF8FFFF = 0) :
    v &&& 0xFFFFFF00 = c ↔ wordField v 18 16 = k ∧ v &&& 0xFFF8FF00 = 0 := by
  rw [and_eq_iff_field v c (hi := 18) (lo := 16) (by decide), count]
  exact and_congr_right' (Eq.congr_right rest)

/-- The words of OP 0x10 that are no EADD (R99). -/
theorem noAddendRow_iff (v : Word) :
    (v &&& 0xFFFFFF00 ≠ 0x00020000 ∧ v &&& 0xFFFFFF00 ≠ 0x00030000 ∧ v &&& 0xFFFFFF00 ≠ 0x00040000 ∧
      v &&& 0xFFFFFF00 ≠ 0x00050000) ↔
    v &&& 0xFFF8FF00 ≠ 0 ∨ wordField v 18 16 = 0 ∨ wordField v 18 16 = 1 ∨ wordField v 18 16 = 6 ∨ wordField v 18 16 = 7 := by
  have k_lt : wordField v 18 16 < 8 := wordField_lt v 18 16
  simp only [ne_eq, addendRow_iff v (c := 0x00020000) (k := 2) rfl rfl, addendRow_iff v (c := 0x00030000) (k := 3) rfl rfl,
    addendRow_iff v (c := 0x00040000) (k := 4) rfl rfl, addendRow_iff v (c := 0x00050000) (k := 5) rfl rfl]
  by_cases reserved : v &&& 0xFFF8FF00 = 0
  · simp only [reserved, and_true, not_true, false_or]
    omega
  · simp only [reserved, and_false, not_false_eq_true, and_self, true_or]

/-- Settles O3, by the value of OP: each asks for one reserved mask, but 0x10, which has a row per K. -/
theorem illegalWords : Obligations.IllegalWords := by
  intro v op k
  rw [decode_error_iff_op]
  change (∀ r ∈ opRows, op = wordField r.code 7 0 → _) ↔ _
  simp only [opRows, List.forall_mem_cons, List.not_mem_nil, IsEmpty.forall_iff, implies_true, and_true, wordField_eq,
    BitVec.ofNat_eq_ofNat, BitVec.toNat_ofNat, pow_zero, Nat.div_one, tsub_zero, Nat.reduceAdd, Nat.reducePow,
    Nat.reduceMod, BitVec.reduceAnd, ne_eq]
  obtain context | addend | rotation | undefined : op < 0x10 ∨ op = 0x10 ∨ (0x10 < op ∧ op < 0x14) ∨ 0x14 ≤ op := by omega
  · interval_cases op <;> simp
  · simpa [addend] using noAddendRow_iff v
  · obtain ⟨above, below⟩ := rotation
    interval_cases op <;> simp
  · exact iff_of_true (by omega) (.inl (by omega))

/-- Settles O4, by running the decoder. -/
theorem wordsOfTheSpecDecode : Obligations.WordsOfTheSpecDecode := by
  unfold Obligations.WordsOfTheSpecDecode
  decide

end Sys2Proof

/-! # The emulation layer

Pairs as 64-bit values: lane addition is addition, the rotations and the shift are those of the value; and the commands that compute them (R120 to R130). -/

namespace Sys2Proof.Machine

/-! ## Pairs and their values -/

@[simp] theorem pairOf_pairVal (p : Pair) : pairOf (pairVal p) = p := by
  rw [pairOf, pairVal, BitVec.extractLsb'_append_eq_left, BitVec.extractLsb'_append_eq_right]

theorem eq_pairOf {p : Pair} {v : BitVec 64} (h : pairVal p = v) : p = pairOf v := by
  rw [← h, pairOf_pairVal]

theorem pairVal_toNat (p : Pair) : (pairVal p).toNat = p.h.toNat * 2 ^ 32 + p.l.toNat := by
  rw [pairVal, BitVec.toNat_append, ← Nat.shiftLeft_add_eq_or_of_lt p.l.isLt, Nat.shiftLeft_eq]

/-! ## Lane addition -/

/-- The low lane of a half. -/
theorem lowLane_toNat (w : Word) : (w &&& 0xFFFF).toNat = w.toNat % 2 ^ 16 :=
  Nat.and_two_pow_sub_one_eq_mod w.toNat 16

/-- The high lane of a half, or the carry out of a lane. -/
theorem highLane_toNat (w : Word) : (w >>> 16).toNat = w.toNat / 2 ^ 16 := by
  rw [BitVec.toNat_ushiftRight, Nat.shiftRight_eq_div_pow]

/-- A half put together from the low 16 bits of two lane sums (R121). -/
theorem joinLanes_toNat (hi lo : Word) :
    (((hi &&& 0xFFFF) <<< 16) ||| (lo &&& 0xFFFF)).toNat = hi.toNat % 2 ^ 16 * 2 ^ 16 + lo.toNat % 2 ^ 16 := by
  have fits : hi.toNat % 2 ^ 16 * 2 ^ 16 < 2 ^ 32 := by omega
  rw [BitVec.toNat_or, BitVec.toNat_shiftLeft, lowLane_toNat, lowLane_toNat, Nat.shiftLeft_eq, Nat.mod_eq_of_lt fits,
    ← Nat.shiftLeft_eq, Nat.shiftLeft_add_eq_or_of_lt (Nat.mod_lt _ (by decide))]

/-- A sum of words is that of their numbers, modulo 2^w. -/
theorem toNat_sum {w : Nat} (vs : List (BitVec w)) : vs.sum.toNat = (vs.map BitVec.toNat).sum % 2 ^ w := by
  induction vs with
  | nil => simp
  | cons v vs ih => rw [List.sum_cons, BitVec.toNat_add, ih, Nat.add_mod_mod, List.map_cons, List.sum_cons]

theorem laneSum_eq_sum (ps : List Pair) (lane : Pair → Word) : laneSum ps lane = (ps.map lane).sum := by
  rw [List.sum_eq_foldl, List.foldl_map, laneSum]

/-- Up to five operands of 16 bits sum in a word without overflow (R121). -/
theorem laneSum_toNat {ps : List Pair} (len : ps.length ≤ 5) {lane : Pair → Word} (narrow : ∀ p, (lane p).toNat < 2 ^ 16) :
    (laneSum ps lane).toNat = (ps.map fun p => (lane p).toNat).sum ∧ (laneSum ps lane).toNat ≤ 5 * 0xFFFF := by
  have bound := List.sum_le_card_nsmul (ps.map fun p => (lane p).toNat) 0xFFFF
    (List.forall_mem_map.mpr fun p _ => Nat.le_of_lt_succ (narrow p))
  rw [List.length_map, smul_eq_mul] at bound
  have total : (laneSum ps lane).toNat = (ps.map fun p => (lane p).toNat).sum % 2 ^ 32 := by
    rw [laneSum_eq_sum, toNat_sum, List.map_map]
    rfl
  omega

/-- A value is its four lanes, each at its weight. -/
theorem pairVal_toNat_lanes (p : Pair) :
    (pairVal p).toNat = (p.l &&& 0xFFFF).toNat + (p.l >>> 16).toNat * 2 ^ 16 + (p.h &&& 0xFFFF).toNat * 2 ^ 32 +
      (p.h >>> 16).toNat * 2 ^ 48 := by
  rw [pairVal_toNat, lowLane_toNat, highLane_toNat, lowLane_toNat, highLane_toNat]
  omega

/-- Lane addition is addition modulo 2^64: the carries keep the weighted sum of the lanes, but for the last (R129). -/
theorem pairVal_laneAdd_toNat {ps : List Pair} (len : ps.length ≤ 5) :
    (pairVal (laneAdd ps)).toNat = (ps.map fun p => (pairVal p).toNat).sum % 2 ^ 64 := by
  have low (w : Word) : (w &&& 0xFFFF).toNat < 2 ^ 16 := by rw [lowLane_toNat]; omega
  have high (w : Word) : (w >>> 16).toNat < 2 ^ 16 := by rw [highLane_toNat]; omega
  obtain ⟨sum0, le0⟩ := laneSum_toNat len fun p => low p.l
  obtain ⟨sum1, le1⟩ := laneSum_toNat len fun p => high p.l
  obtain ⟨sum2, le2⟩ := laneSum_toNat len fun p => low p.h
  obtain ⟨sum3, le3⟩ := laneSum_toNat len fun p => high p.h
  rw [pairVal_toNat (laneAdd ps)]
  simp only [pairVal_toNat_lanes, List.sum_map_add, List.sum_map_mul_right, ← sum0, ← sum1, ← sum2, ← sum3]
  simp only [laneAdd, joinLanes_toNat, BitVec.toNat_add, highLane_toNat]
  omega

/-- Lane addition gives the pair of the values' sum (R129). -/
theorem laneAdd_eq_pairOf {ps : List Pair} (len : ps.length ≤ 5) : laneAdd ps = pairOf (ps.map pairVal).sum := by
  refine eq_pairOf (BitVec.eq_of_toNat_eq ?_)
  rw [pairVal_laneAdd_toNat len, toNat_sum, List.map_map]
  rfl

/-! ## Rotations and the shift -/

theorem getLsbD_pairVal (p : Pair) (i : Nat) :
    (pairVal p).getLsbD i = if i < 32 then p.l.getLsbD i else p.h.getLsbD (i - 32) :=
  BitVec.getLsbD_append

theorem rotr64_eq_rotateRight (v : BitVec 64) {n : Nat} (h : n < 64) : rotr64 v n = v.rotateRight n := by
  rw [rotr64, BitVec.rotateRight_def, Nat.mod_eq_of_lt h]
  split
  · subst n; simp
  · rfl

/-- R126's halves, also for n = 0, where the bits shifted in from the other half are none. -/
theorem pairRotr_eq (x : Pair) (n : Nat) :
    pairRotr x n = ⟨(x.h >>> n) ||| (x.l <<< (32 - n)), (x.l >>> n) ||| (x.h <<< (32 - n))⟩ := by
  rw [pairRotr]
  split
  · subst n; simp
  · rfl

theorem pairShr_eq (x : Pair) (n : Nat) : pairShr x n = ⟨x.h >>> n, (x.l >>> n) ||| (x.h <<< (32 - n))⟩ := by
  rw [pairShr]
  split
  · subst n; simp
  · rfl

/-- A bit of the low half comes from either half, one of the high half from the high half (R128). -/
theorem pairVal_pairShr (x : Pair) {n : Nat} (h : n < 32) : pairVal (pairShr x n) = pairVal x >>> n := by
  refine BitVec.eq_of_getLsbD_eq fun i _ => ?_
  rw [pairShr_eq, BitVec.getLsbD_ushiftRight, getLsbD_pairVal, getLsbD_pairVal]
  by_cases low : i < 32
  · by_cases fromLow : n + i < 32
    · simp [low, fromLow, show i < 32 - n by omega]
    · simp [low, fromLow, show ¬ i < 32 - n by omega, show i - (32 - n) = n + i - 32 by omega,
        BitVec.getLsbD_of_ge x.l (n + i) (by omega), show n + i - 32 < 32 by omega]
  · simp [low, show ¬ n + i < 32 by omega, show n + (i - 32) = n + i - 32 by omega]

/-- What a left shift by more than 32 keeps is bits of the low half. -/
theorem pairVal_shiftLeft (x : Pair) {n : Nat} (h : n < 32) :
    pairVal x <<< (64 - n) = pairVal ⟨x.l <<< (32 - n), 0⟩ := by
  refine BitVec.eq_of_getLsbD_eq fun i hi => ?_
  rw [BitVec.getLsbD_shiftLeft, getLsbD_pairVal, getLsbD_pairVal]
  by_cases low : i < 32
  · simp [low, show i < 64 - n by omega]
  · simp [low, hi, show i - 32 < 32 by omega, show i - (64 - n) < 32 by omega,
      show i - 32 - (32 - n) = i - (64 - n) by omega, show i - 32 < 32 - n ↔ i < 64 - n by omega]

theorem pairVal_or (x y : Pair) : pairVal x ||| pairVal y = pairVal ⟨x.h ||| y.h, x.l ||| y.l⟩ := BitVec.or_append

/-- The shifted value, with the bits shifted out put in above (R126). -/
theorem pairVal_pairRotr (x : Pair) {n : Nat} (h : n < 32) : pairVal (pairRotr x n) = (pairVal x).rotateRight n := by
  rw [BitVec.rotateRight_def, Nat.mod_eq_of_lt (by omega), ← pairVal_pairShr x h, pairVal_shiftLeft x h, pairVal_or,
    pairShr_eq, pairRotr_eq]
  simp

/-- Bit i of a rotation by r is bit r + i, counted around. -/
theorem getLsbD_rotateRight_around {w : Nat} (v : BitVec w) (r : Nat) {i : Nat} (h : i < w) :
    (v.rotateRight r).getLsbD i = v.getLsbD ((r + i) % w) := by
  have amount := Nat.mod_lt r (Nat.zero_lt_of_lt h)
  rw [BitVec.getLsbD_rotateRight, ← Nat.mod_add_mod]
  generalize r % w = q at amount
  by_cases inside : i < w - q
  · rw [Nat.mod_eq_of_lt (by omega)]
    simp only [inside, decide_true, cond_true]
  · rw [Nat.mod_eq_sub_mod (by omega), Nat.mod_eq_of_lt (by omega), show q + i - w = i - (w - q) by omega]
    simp only [inside, decide_false, cond_false, h, decide_true, Bool.true_and]

theorem rotateRight_rotateRight {w : Nat} (v : BitVec w) (m n : Nat) :
    (v.rotateRight m).rotateRight n = v.rotateRight (m + n) := by
  refine BitVec.eq_of_getLsbD_eq fun i h => ?_
  rw [getLsbD_rotateRight_around _ _ h, getLsbD_rotateRight_around _ _ (Nat.mod_lt _ (Nat.zero_lt_of_lt h)),
    getLsbD_rotateRight_around _ _ h, Nat.add_mod_mod, Nat.add_assoc]

/-- Swapped halves are a rotation by 32. -/
theorem pairVal_swap (x : Pair) : pairVal ⟨x.l, x.h⟩ = (pairVal x).rotateRight 32 := by
  refine BitVec.eq_of_getLsbD_eq fun i h => ?_
  rw [getLsbD_rotateRight_around _ _ h, getLsbD_pairVal, getLsbD_pairVal]
  by_cases low : i < 32
  · simp [low, show (32 + i) % 64 = 32 + i by omega]
  · simp [low, show (32 + i) % 64 = i - 32 by omega, show i - 32 < 32 by omega]

/-- A rotation by 32 + n is one by n of the swapped halves (R127). -/
theorem pairVal_pairRotrx (x : Pair) {n : Nat} (h : n < 32) :
    pairVal (pairRotrx x n) = (pairVal x).rotateRight (32 + n) :=
  calc pairVal (pairRotrx x n)
    _ = pairVal (pairRotr ⟨x.l, x.h⟩ n) := rfl
    _ = (pairVal ⟨x.l, x.h⟩).rotateRight n := pairVal_pairRotr _ h
    _ = (pairVal x).rotateRight (32 + n) := by rw [pairVal_swap, rotateRight_rotateRight]

/-- Settles O27: the weighted sum of the lanes, and the bits of the two halves. -/
theorem layerIsNativeArithmetic : Obligations.LayerIsNativeArithmetic := by
  refine ⟨fun ps _ len => pairVal_laneAdd_toNat len, fun x n h => ⟨?_, ?_, ?_⟩⟩
  · rw [pairVal_pairRotr x h, rotr64_eq_rotateRight _ (by omega)]
  · rw [pairVal_pairRotrx x h, rotr64_eq_rotateRight _ (by omega)]
  · exact pairVal_pairShr x h

/-! ## The commands -/

/-- All five EA registers (R41). -/
theorem ea_toList (s : State) : s.ea.toList = [s.ea[0], s.ea[1], s.ea[2], s.ea[3], s.ea[4]] := by
  refine List.ext_getElem (by simp) fun i hi _ => ?_
  rw [Vector.length_toList] at hi
  interval_cases i <;> rfl

/-- An add command writes the lane addition of its operands to ER and completes, and changes nothing else (R130, R273). -/
theorem succeed_eaddResult (s : State) {k : Nat} {ps : List Pair} (operands : eaOperands s k = ps) :
    succeed (eaddResult k s) = .next
      { s with er := laneAdd ps, pending := none, status := { s.status with done := true, err := .none } } := by
  rw [← operands]
  rfl

/-- Settles O28: the operands are the first EA registers, and lane addition is addition. -/
theorem eaddCommandsAddModulo : Obligations.EaddCommandsAddModulo := by
  refine ⟨by decide, fun s => ?_⟩
  have operands (k : Nat) : eaOperands s k = [s.ea[0], s.ea[1], s.ea[2], s.ea[3], s.ea[4]].take k :=
    congrArg (List.take k) (ea_toList s)
  refine ⟨⟨?_, succeed_eaddResult s (operands 2)⟩, ⟨?_, succeed_eaddResult s (operands 3)⟩,
    ⟨?_, succeed_eaddResult s (operands 4)⟩, ⟨?_, succeed_eaddResult s (operands 5)⟩⟩
  all_goals
    refine (laneAdd_eq_pairOf (by simp)).trans (congrArg pairOf ?_)
    simp [add_assoc]

/-- Settles O29: the encoded word decodes back, and ER gets the pair of the rotated or shifted value. -/
theorem rotateAndShiftCommands : Obligations.RotateAndShiftCommands := by
  intro n h
  refine ⟨⟨?_, ?_, ?_⟩, fun s => ⟨?_, ?_, ?_⟩⟩
  · exact decodeOfEncode (.erotr n) (decide_eq_true h)
  · exact decodeOfEncode (.erotrx n) (decide_eq_true h)
  · exact decodeOfEncode (.eshr n) (decide_eq_true h)
  · rw [← eq_pairOf (pairVal_pairRotr s.ea[0] h)]; rfl
  · rw [← eq_pairOf (pairVal_pairRotrx s.ea[0] h)]; rfl
  · rw [← eq_pairOf (pairVal_pairShr s.ea[0] h)]; rfl

end Sys2Proof.Machine

/-! # Padding

PAD by its bytes: how many there are, what they are in each block (R150, R151). -/

namespace Sys2Proof.Machine

/-! ## Whole blocks -/

/-- The first k blocks are the first k * B bytes. -/
theorem flatten_blocks (B k : Nat) (p : List Byte) :
    ((List.range k).map fun i => (p.drop (i * B)).take B).flatten = p.take (k * B) := by
  induction k with
  | zero => simp
  | succ k ih =>
    rw [List.range_succ, List.map_append, List.flatten_append, ih, Nat.succ_mul, List.take_add]
    simp

theorem flatten_wholeBlocks {B : Nat} {p : List Byte} (whole : p.length % B = 0) : (wholeBlocks B p).flatten = p := by
  rw [wholeBlocks, flatten_blocks, Nat.div_mul_cancel (Nat.dvd_of_mod_eq_zero whole), List.take_length]

theorem length_of_mem_wholeBlocks {B : Nat} {p blk : List Byte} (h : blk ∈ wholeBlocks B p) : blk.length = B := by
  obtain ⟨i, hi, rfl⟩ := List.mem_map.mp h
  have inside : (i + 1) * B ≤ p.length :=
    (Nat.mul_le_mul_right B (List.mem_range.mp hi)).trans (Nat.div_mul_le_self p.length B)
  rw [Nat.succ_mul] at inside
  rw [List.length_take, List.length_drop]
  omega

/-- PAD's blocks are whole (R150). -/
theorem length_of_mem_padBlocks {alg : Alg} {tail : List Byte} {L : Nat} {blk : List Byte}
    (h : blk ∈ padBlocks alg tail L) : blk.length = blockBytes alg :=
  length_of_mem_wholeBlocks h

/-! ## The zero bytes -/

/-- The zeros fill the last block up to its length field (R150). -/
theorem zeroFill_fills (alg : Alg) (len : Nat) : (len + zeroFill alg len + lengthBytes alg) % blockBytes alg = 0 := by
  cases alg <;> simp only [zeroFill, blockBytes, lengthBytes] <;> omega

/-- Fewer zeros fill no block: R150's loop stops at the first count that does. -/
theorem zeroFill_least (alg : Alg) {len j : Nat} (fewer : j < zeroFill alg len) :
    (len + j + lengthBytes alg) % blockBytes alg ≠ 0 := by
  cases alg <;> simp only [zeroFill, blockBytes, lengthBytes] at fewer ⊢ <;> omega

/-- Settles O34: the blocks put together again are the padded bytes. -/
theorem paddingContent : Obligations.PaddingContent := by
  intro alg tail L _
  refine ⟨zeroFill alg (tail.length + 1), zeroFill_fills alg _, fun j fewer => zeroFill_least alg fewer, ?_,
    fun blk h => length_of_mem_padBlocks h⟩
  rw [padBlocks, flatten_wholeBlocks (padBytes_whole alg tail L)]
  cases alg <;> rfl

/-! ## The number of blocks -/

theorem lengthBytes_le (alg : Alg) : lengthBytes alg ≤ blockBytes alg := by cases alg <;> decide

/-- How many zeros a tail shorter than a block gets: up to the end of its own block or of the next one (R151). -/
theorem zeroFill_eq (alg : Alg) {nb : Nat} (short : nb < blockBytes alg) :
    zeroFill alg (nb + 1) =
      (if nb + 1 + lengthBytes alg ≤ blockBytes alg then 1 else 2) * blockBytes alg - lengthBytes alg - (nb + 1) := by
  split <;> cases alg <;> simp only [zeroFill, blockBytes, lengthBytes] at * <;> omega

theorem length_padBlocks (alg : Alg) {tail : List Byte} (L : Nat) (short : tail.length < blockBytes alg) :
    (padBlocks alg tail L).length = if tail.length + 1 + lengthBytes alg ≤ blockBytes alg then 1 else 2 := by
  have field_le := lengthBytes_le alg
  rw [padBlocks, length_wholeBlocks]
  refine Nat.div_eq_of_eq_mul_left (blockBytes_pos alg) ?_
  simp only [padBytes, List.length_append, List.length_singleton, List.length_replicate, length_lengthField,
    zeroFill_eq alg short]
  split <;> omega

/-- The largest tails with one block: 111 bytes of SHA-512, 55 of the others (R151). -/
theorem oneBlock_iff (alg : Alg) (nb : Nat) :
    nb + 1 + lengthBytes alg ≤ blockBytes alg ↔ nb ≤ if alg = .sha512 then 111 else 55 := by
  cases alg <;> simp only [lengthBytes, blockBytes, reduceCtorEq, if_true, if_false] <;> omega

/-- The padded bytes above the first block hold no message byte: zeros and the length field (R151). -/
theorem drop_padBytes {alg : Alg} {tail : List Byte} (L : Nat) (short : tail.length < blockBytes alg)
    (two : ¬ tail.length + 1 + lengthBytes alg ≤ blockBytes alg) :
    (padBytes alg tail L).drop (blockBytes alg) =
      List.replicate (blockBytes alg - lengthBytes alg) 0 ++ lengthField alg L := by
  have field_le := lengthBytes_le alg
  have fill := zeroFill_eq alg short
  rw [if_neg two] at fill
  have front : (tail ++ [0x80]).length = tail.length + 1 := List.length_append
  rw [padBytes, List.append_assoc (tail ++ [0x80]), List.drop_append, List.drop_of_length_le (by omega),
    List.nil_append, List.drop_append_of_le_length (by rw [List.length_replicate]; omega), List.drop_replicate]
  congr 2
  omega

theorem padBlocks_second {alg : Alg} {tail : List Byte} (L : Nat) (short : tail.length < blockBytes alg)
    (two : ¬ tail.length + 1 + lengthBytes alg ≤ blockBytes alg) :
    (padBlocks alg tail L)[1]? = some (List.replicate (blockBytes alg - lengthBytes alg) 0 ++ lengthField alg L) := by
  have count : (padBytes alg tail L).length / blockBytes alg = 2 := by
    rw [← length_wholeBlocks]
    exact (length_padBlocks alg L short).trans (if_neg two)
  have whole : (List.replicate (blockBytes alg - lengthBytes alg) 0 ++ lengthField alg L).length = blockBytes alg := by
    rw [List.length_append, List.length_replicate, length_lengthField, Nat.sub_add_cancel (lengthBytes_le alg)]
  rw [padBlocks, wholeBlocks, count, List.getElem?_map, List.getElem?_range (by decide), Option.map_some, Nat.one_mul,
    drop_padBytes L short two, List.take_of_length_le whole.le]

/-- Settles O35, by the number of zeros. -/
theorem paddingBlockCount : Obligations.PaddingBlockCount := by
  intro alg tail L short
  have count := length_padBlocks alg L short
  refine ⟨count, fun blk h => length_of_mem_padBlocks h, ?_, fun blk second => ?_⟩
  · rw [count, ← oneBlock_iff]
    simp
  · by_cases one : tail.length + 1 + lengthBytes alg ≤ blockBytes alg
    · rw [if_pos one] at count
      simp [List.getElem?_eq_none count.le] at second
    · rw [padBlocks_second L short one] at second
      exact (Option.some.inj second).symm

end Sys2Proof.Machine

/-! # The digest commands

NOP, INIT, COMPRESS, FINAL, SELFTEST and CLEAR: their words, what each writes and what it leaves, and what the contexts have absorbed (R140 to R148, R155). -/

namespace Sys2Proof.Machine

/-! ## One context written -/

@[simp] theorem State.ctx_setCtx_self (s : State) (c : CtxId) (x : Context) : (s.setCtx c x).ctx c = x := by
  rw [State.ctx_setCtx, if_pos rfl]

theorem State.ctx_setCtx_other (s : State) {c d : CtxId} (other : d ≠ c) (x : Context) : (s.setCtx c x).ctx d = s.ctx d := by
  rw [State.ctx_setCtx, if_neg other]

@[simp] theorem State.ctx_withMem (s : State) (m : Memory) (c : CtxId) : State.ctx { s with mem := m } c = s.ctx c := by
  cases c <;> rfl

/-! ## NOP, INIT, CLEAR and SELFTEST -/

/-- NOP's row has no operand bits, and OP 0x00 has no other row (R97, R140). -/
theorem decode_error_of_op_zero {v : Word} (op : wordField v 7 0 = 0) (nonzero : v ≠ 0) : ∃ e, decode v = .error e := by
  have nopRow : ∀ r ∈ opRows, wordField r.code 7 0 = 0 → r.mask = BitVec.allOnes 32 ∧ r.code = 0 := by decide
  refine (decode_error_iff v).mpr fun r hr selected => nonzero ?_
  obtain ⟨sameOp, -⟩ := (selectsRow_iff v hr).mp selected
  obtain ⟨mask, code⟩ := nopRow r hr (sameOp ▸ op)
  have bits : v &&& r.mask = r.code := eq_of_beq selected
  rwa [mask, BitVec.and_allOnes, code] at bits

/-- Settles O14: its row is the whole word, and its meaning the completion. -/
theorem nopOnlyCompletes : Obligations.NopOnlyCompletes :=
  ⟨decodeOfEncode .nop rfl, fun _ => rfl, fun _ => decode_error_of_op_zero⟩

/-- Settles O15: the encoded word decodes back, and INIT writes one started context. -/
theorem initStartsTheContext : Obligations.InitStartsTheContext :=
  fun alg _ => ⟨fun c => decodeOfEncode (.init alg c) rfl, rfl, rfl⟩

/-- The digest of "abc" is the published one, computed (R147, R155). -/
theorem digestOf_abc (alg : Alg) : digestOf alg abcBytes = refDigest alg := by
  cases alg <;> decide +kernel

/-- Settles O20: the comparison of SELFTEST holds for each algorithm. -/
theorem selftestPasses : Obligations.SelftestPasses := by
  refine ⟨⟨digestOf_abc .sha1, digestOf_abc .sha256, digestOf_abc .sha512, digestOf_abc .rmd160⟩,
    fun alg s => ⟨decodeOfEncode (.selftest alg) rfl, ?_⟩⟩
  have passes : decide (digestOf alg abcBytes = refDigest alg) = true := decide_eq_true (digestOf_abc alg)
  rw [exec, execSelftest, passes]
  rfl

/-- Every register but CMD, CTRL and STATUS holds what it holds after reset (R148). -/
theorem readReg_cleared (s : State) {r : Reg} (cmd : r ≠ .cmd) (ctrl : r ≠ .ctrl) (status : r ≠ .status) :
    readReg (s.cleared.complete .none) r = readReg State.reset r := by
  cases r with
  | cmd => exact absurd rfl cmd
  | ctrl => exact absurd rfl ctrl
  | status => exact absurd rfl status
  | ctxInfo c | len c _ | h c _ => cases c <;> rfl
  | _ => rfl

/-- STATUS after CLEAR: DONE alone (R148). -/
theorem statusWord_cleared (s : State) : statusWord (s.cleared.complete .none) = 0x00000002 := by
  rw [statusWord, State.busy_complete, State.complete_status, State.cleared_status]
  rfl

/-- Settles O21: the cleared state, register by register. -/
theorem clearIsResetButCtrlAndCmd : Obligations.ClearIsResetButCtrlAndCmd :=
  ⟨decodeOfEncode .clear rfl, fun s =>
    ⟨s.cleared.complete .none, rfl, rfl, statusWord_cleared s, Bool.true_and s.ie, fun _ => readReg_cleared s⟩⟩

/-! ## COMPRESS -/

/-- The context with one block more absorbed: what COMPRESS writes (R142). -/
def Context.absorb (x : Context) (blk : List Byte) : Context :=
  { x with h := compressBlock x.alg x.h blk, len := x.len + BitVec.ofNat 128 (8 * blockBytes x.alg) }

theorem exec_compress_active {c : CtxId} {s : State} (active : (s.ctx c).state = .active) :
    exec (.compress c) s =
      .next ((s.setCtx c ((s.ctx c).absorb (msgSlice s (blockBytes (s.ctx c).alg)))).complete .none) :=
  if_neg (not_not_intro active)

theorem exec_compress_inactive {c : CtxId} {s : State} (inactive : (s.ctx c).state ≠ .active) :
    exec (.compress c) s = .next (s.complete .state) :=
  if_pos inactive

/-- Settles O17: the context written, or the error. -/
theorem compressAbsorbsOneBlock : Obligations.CompressAbsorbsOneBlock := by
  intro c s
  refine ⟨decodeOfEncode (.compress c) rfl, fun active => ⟨_, exec_compress_active active, ?_⟩, exec_compress_inactive⟩
  simp only [State.ctx_complete, State.ctx_setCtx_self]
  refine ⟨rfl, ?_, rfl, fun d other => State.ctx_setCtx_other s other _, by cases c <;> rfl⟩
  rw [Context.absorb, BitVec.toNat_add, BitVec.toNat_ofNat, Nat.add_mod_mod]

/-- COMPRESS reads the memory through its block only, and writes none of it (R142). -/
theorem exec_compress_withMem {c : CtxId} {s t : State} {m : Memory}
    (block : msgSlice { s with mem := m } (blockBytes (s.ctx c).alg) = msgSlice s (blockBytes (s.ctx c).alg))
    (h : exec (.compress c) s = .next t) : exec (.compress c) { s with mem := m } = .next { t with mem := m } := by
  have sameCtx := State.ctx_withMem s m c
  by_cases active : (s.ctx c).state = .active
  · rw [exec_compress_active active] at h
    rw [exec_compress_active (sameCtx ▸ active), sameCtx, block]
    cases h
    cases c <;> rfl
  · rw [exec_compress_inactive active] at h
    rw [exec_compress_inactive (sameCtx ▸ active)]
    cases h
    rfl

/-- Settles O18: the block is the same, so the meanings are. -/
theorem compressIgnoresBytesBeyondTheBlock : Obligations.CompressIgnoresBytesBeyondTheBlock := by
  intro c s m agree
  obtain ⟨t, ht⟩ := exec_next (.compress c) s
  exact ⟨t, _, ht, exec_compress_withMem (Memory.readList_congr m s.mem msgBase _ agree) ht, rfl⟩

/-! ## FINAL -/

theorem exec_final_active {c : CtxId} {nb : Nat} {s : State} (active : (s.ctx c).state = .active)
    (fits : nb < blockBytes (s.ctx c).alg) :
    exec (.final c nb) s = .next
      (((s.setCtx c (finishContext (s.ctx c) (s.ctx c).alg (msgSlice s nb))).writeDigest (s.ctx c).alg
        (finishContext (s.ctx c) (s.ctx c).alg (msgSlice s nb)).h).complete .none) :=
  (if_neg (not_not_intro active)).trans (if_neg (Nat.not_le.mpr fits))

theorem exec_final_inactive {c : CtxId} (nb : Nat) {s : State} (inactive : (s.ctx c).state ≠ .active) :
    exec (.final c nb) s = .next (s.complete .state) :=
  if_pos inactive

theorem exec_final_operand {c : CtxId} {nb : Nat} {s : State} (active : (s.ctx c).state = .active)
    (large : blockBytes (s.ctx c).alg ≤ nb) : exec (.final c nb) s = .next (s.complete .operand) :=
  (if_neg (not_not_intro active)).trans (if_pos large)

/-- A finished context, its bit count as a number modulo 2^128 (R145). -/
theorem finishContext_eq (x : Context) (alg : Alg) (tail : List Byte) :
    let L := (x.len.toNat + 8 * tail.length) % 2 ^ 128
    finishContext x alg tail =
      { state := .final, alg := x.alg, hmac := x.hmac, len := BitVec.ofNat 128 L, h := absorbTail alg x.h tail L } := by
  intro L
  have bits : (x.len + BitVec.ofNat 128 (8 * tail.length)).toNat = L := by
    rw [BitVec.toNat_add, BitVec.toNat_ofNat, Nat.add_mod_mod]
  rw [finishContext, bits, ← bits, BitVec.ofNat_toNat, BitVec.setWidth_eq]

@[simp] theorem length_msgSlice (s : State) (n : Nat) : (msgSlice s n).length = n := Memory.length_readList _ _ n

/-- A written digest byte (R145, R253). -/
theorem digestByte_writeDigest (s : State) (alg : Alg) (H : Vector Word 16) {i : Nat} (hi : i < 64) :
    digestByte (s.writeDigest alg H) i = if i < digestBytes alg then (serialize alg H).getD i 0 else 0 := by
  rw [digestByte, read_writeDigest, if_pos (by omega), Nat.add_sub_cancel_left]

/-- Settles O19: the finished context and the written digest, or the errors in their order. -/
theorem finalWritesTheDigest : Obligations.FinalWritesTheDigest := by
  intro c nb s x alg L H
  refine ⟨fun byte => decodeOfEncode (.final c nb) (decide_eq_true byte),
    fun active fits => ⟨_, exec_final_active active fits, ?_⟩, exec_final_inactive nb, exec_final_operand⟩
  have finished : finishContext x alg (msgSlice s nb) =
      { state := .final, alg := alg, hmac := x.hmac, len := BitVec.ofNat 128 L, h := H } := by
    rw [finishContext_eq, length_msgSlice]
    rfl
  have D_le := (digestBytes_le alg).2
  rw [finished]
  simp only [State.ctx_complete, State.ctx_writeDigest, State.ctx_setCtx_self]
  refine ⟨trivial, fun d other => State.ctx_setCtx_other s other _, fun i hi => ?_, fun i hD hi => ?_, fun a outside => ?_,
    by cases c <;> rfl⟩
  · exact (digestByte_writeDigest _ alg H (by omega)).trans (if_pos hi)
  · exact (digestByte_writeDigest _ alg H hi).trans (if_neg (Nat.not_lt.mpr hD))
  · rw [State.complete_mem, read_writeDigest, if_neg outside, State.setCtx_mem]

/-! ## What a context has absorbed -/

/-- A started context has absorbed nothing (R141). -/
theorem startedContext_absorbed (alg : Alg) : (startedContext alg false 0 (ivOf alg)).Absorbed alg false [] where
  active := rfl
  alg_eq := rfl
  hmac_eq := rfl
  whole := Nat.zero_mod _
  bits := rfl
  words := by rw [wholeBlocks_short _ _ (blockBytes_pos alg)]; rfl

/-- One block more is absorbed (R142). -/
theorem Context.Absorbed.absorb {x : Context} {alg : Alg} {hmac : Bool} {m blk : List Byte}
    (h : x.Absorbed alg hmac m) (block : blk.length = blockBytes alg) : (x.absorb blk).Absorbed alg hmac (m ++ blk) := by
  obtain ⟨active, rfl, hmac_eq, whole, bits, words⟩ := h
  refine ⟨active, rfl, hmac_eq, ?_, ?_, ?_⟩
  · rw [List.length_append, block, Nat.add_mod_right, whole]
  · rw [Context.absorb, bits, ← BitVec.ofNat_add, List.length_append, block, Nat.mul_add]
  · rw [Context.absorb, words, wholeBlocks_append _ (blockBytes_pos _) m blk whole,
      wholeBlocks_single _ (blockBytes_pos _) blk block, compressBlocks_append, compressBlocks_cons, compressBlocks_nil]

/-- PAD writes the bit count modulo 2^128, so LEN's 128 bits suffice for a message of any length (R33, R150). -/
theorem padBlocks_mod (alg : Alg) (tail : List Byte) (L : Nat) : padBlocks alg tail (L % 2 ^ 128) = padBlocks alg tail L := by
  rw [padBlocks, padBytes, lengthField_mod]
  rfl

/-- A finished context counts the whole message's bits (R145). -/
theorem Context.Absorbed.finish_len {x : Context} {alg : Alg} {hmac : Bool} {m : List Byte} (h : x.Absorbed alg hmac m)
    (tail : List Byte) : (finishContext x alg tail).len = BitVec.ofNat 128 (8 * (m.length + tail.length)) := by
  rw [finishContext_len, h.bits, ← BitVec.ofNat_add, Nat.mul_add]

/-- Finishing with a short tail leaves the state of the message's digest (R145, R155). -/
theorem Context.Absorbed.serialize_finish {x : Context} {alg : Alg} {hmac : Bool} {m tail : List Byte}
    (h : x.Absorbed alg hmac m) (short : tail.length < blockBytes alg) :
    serialize alg (finishContext x alg tail).h = digestOf alg (m ++ tail) := by
  have bits := h.finish_len tail
  rw [finishContext_len] at bits
  rw [finishContext_h, bits, BitVec.toNat_ofNat, absorbTail, padBlocks_mod, h.words,
    digestOf_split alg m tail h.whole short]

/-- The D digest bytes written are the serialised state. -/
theorem digestBytes_writeDigest (s : State) (alg : Alg) (H : Vector Word 16) :
    (List.range (digestBytes alg)).map (fun i => digestByte (s.writeDigest alg H) i) = serialize alg H := by
  have D_le := (digestBytes_le alg).2
  refine Eq.trans (List.map_congr_left fun i hi => ?_) (map_range_getD (serialize alg H) _ (length_serialize alg H))
  have below := List.mem_range.mp hi
  rw [digestByte_writeDigest _ _ _ (by omega), if_pos below]

/-- Settles O37: INIT establishes what is absorbed, COMPRESS adds a block to it, FINAL turns it into the digest. -/
theorem commandsComputeTheDigest : Obligations.CommandsComputeTheDigest := by
  intro alg c s
  refine ⟨⟨_, rfl, ?_⟩, fun hmac m absorbed => ⟨?_, fun nb fits => ?_⟩⟩
  · rw [State.ctx_complete, State.ctx_setCtx_self]
    exact startedContext_absorbed alg
  · have run := exec_compress_active absorbed.active
    rw [absorbed.alg_eq] at run
    refine ⟨_, run, rfl, ?_⟩
    rw [State.ctx_complete, State.ctx_setCtx_self]
    exact absorbed.absorb (length_msgSlice s _)
  · have run := exec_final_active absorbed.active (absorbed.alg_eq ▸ fits)
    rw [absorbed.alg_eq] at run
    have short : (msgSlice s nb).length < blockBytes alg := (length_msgSlice s nb).symm ▸ fits
    refine ⟨_, run, rfl, ?_, ?_, dlen_toNat alg, rfl⟩
    · exact (digestBytes_writeDigest _ alg _).trans (absorbed.serialize_finish short)
    · rw [State.ctx_complete, State.ctx_writeDigest, State.ctx_setCtx_self, absorbed.finish_len, length_msgSlice,
        BitVec.toNat_ofNat]

end Sys2Proof.Machine

/-! # The schedules and the initialisation vectors

The recurrences of the three message schedules (R174, R194, R212), and the H registers after INIT (R171, R191, R211, R231). -/

namespace Sys2Proof.Machine

/-! ## A list extended by a recurrence -/

section Recurrence

variable {α : Type} {next : List α → Nat → α} {zero : α} {init W : List α} {n : Nat}

/-- W is `init` and n more words, each the one that `next` gives for its index. -/
structure MeetsRecurrence (next : List α → Nat → α) (zero : α) (init : List α) (n : Nat) (W : List α) : Prop where
  length_eq : W.length = init.length + n
  initial : ∀ t < init.length, W.getD t zero = init.getD t zero
  recurs : ∀ t, init.length ≤ t → t < init.length + n → W.getD t zero = next W t

/-- From index `start` on, `next` reads a list below the index only. -/
def ReadsEarlier (next : List α → Nat → α) (zero : α) (start : Nat) : Prop :=
  ∀ (V W : List α) (t : Nat), start ≤ t → (∀ k < t, V.getD k zero = W.getD k zero) → next V t = next W t

/-- One more word: those before it still meet the recurrence, because it reads none after them. -/
theorem MeetsRecurrence.snoc (earlier : ReadsEarlier next zero init.length) (h : MeetsRecurrence next zero init n W) :
    MeetsRecurrence next zero init (n + 1) (W ++ [next W (init.length + n)]) := by
  have kept : ∀ k < init.length + n, (W ++ [next W (init.length + n)]).getD k zero = W.getD k zero := fun k hk =>
    List.getD_append _ _ _ _ (h.length_eq ▸ hk)
  have reads : ∀ t, init.length ≤ t → t ≤ init.length + n →
      next W t = next (W ++ [next W (init.length + n)]) t := fun t ht hn =>
    earlier _ _ t ht fun k hk => (kept k (by omega)).symm
  refine ⟨by simp [h.length_eq, Nat.add_assoc], fun t ht => ?_, fun t ht hn => ?_⟩
  · rw [kept t (by omega), h.initial t ht]
  · rcases Nat.lt_or_ge t (init.length + n) with below | above
    · rw [kept t below, h.recurs t ht below, reads t ht below.le]
    · obtain rfl : t = init.length + n := by omega
      rw [← reads _ ht le_rfl, List.getD_append_right _ _ _ _ h.length_eq.le, h.length_eq]
      simp

/-- The loop that appends the next word for n indices meets the recurrence. -/
theorem meetsRecurrence_foldl (earlier : ReadsEarlier next zero init.length) (n : Nat) :
    MeetsRecurrence next zero init n ((List.range' init.length n).foldl (fun W t => W ++ [next W t]) init) := by
  induction n with
  | zero => exact ⟨rfl, fun _ _ => rfl, fun t ht hn => absurd hn (Nat.not_lt.mpr ht)⟩
  | succ n ih =>
    rw [List.range'_concat, List.foldl_append, Nat.one_mul]
    exact ih.snoc earlier

/-- A recurrence from the first sixteen words that `first` gives, by index. -/
theorem MeetsRecurrence.of_first {first : Nat → α} (h : MeetsRecurrence next zero ((List.range 16).map first) n W) :
    W.length = 16 + n ∧ (∀ t < 16, W.getD t zero = first t) ∧
      ∀ t, 16 ≤ t → t < 16 + n → W.getD t zero = next W t := by
  obtain ⟨length_eq, initial, recurs⟩ := h
  rw [List.length_map, List.length_range] at length_eq initial recurs
  refine ⟨length_eq, fun t ht => ?_, recurs⟩
  rw [initial t ht]
  simp [List.getD_eq_getElem?_getD, ht]

end Recurrence

/-! ## The message schedules -/

/-- SHA-1's recurrence (R174). -/
def sha1Next (W : List Word) (t : Nat) : Word :=
  rotl32 (W.getD (t - 3) 0 ^^^ W.getD (t - 8) 0 ^^^ W.getD (t - 14) 0 ^^^ W.getD (t - 16) 0) 1

/-- SHA-256's recurrence (R194). -/
def sha256Next (W : List Word) (t : Nat) : Word :=
  sha256SmallS1 (W.getD (t - 2) 0) + W.getD (t - 7) 0 + sha256SmallS0 (W.getD (t - 15) 0) + W.getD (t - 16) 0

/-- SHA-512's recurrence, on pairs (R212). -/
def sha512Next (W : List Pair) (t : Nat) : Pair :=
  laneAdd [sha512SmallS1 (W.getD (t - 2) pairZero), W.getD (t - 7) pairZero,
    sha512SmallS0 (W.getD (t - 15) pairZero), W.getD (t - 16) pairZero]

theorem sha1Next_readsEarlier : ReadsEarlier sha1Next 0 16 := by
  intro V W t ht agree
  simp (disch := omega) only [sha1Next, agree]

theorem sha256Next_readsEarlier : ReadsEarlier sha256Next 0 16 := by
  intro V W t ht agree
  simp (disch := omega) only [sha256Next, agree]

theorem sha512Next_readsEarlier : ReadsEarlier sha512Next pairZero 16 := by
  intro V W t ht agree
  simp (disch := omega) only [sha512Next, agree]

theorem sha1Schedule_meetsRecurrence (blk : List Byte) :
    MeetsRecurrence sha1Next 0 ((List.range 16).map fun t => be32 blk (4 * t)) 64 (sha1Schedule blk) :=
  meetsRecurrence_foldl sha1Next_readsEarlier 64

theorem sha256Schedule_meetsRecurrence (blk : List Byte) :
    MeetsRecurrence sha256Next 0 ((List.range 16).map fun t => be32 blk (4 * t)) 48 (sha256Schedule blk) :=
  meetsRecurrence_foldl sha256Next_readsEarlier 48

theorem sha512Schedule_meetsRecurrence (blk : List Byte) :
    MeetsRecurrence sha512Next pairZero ((List.range 16).map fun t => ⟨be32 blk (8 * t), be32 blk (8 * t + 4)⟩) 64
      (sha512Schedule blk) :=
  meetsRecurrence_foldl sha512Next_readsEarlier 64

/-- Settles O30: each schedule is the loop of its recurrence from the block's sixteen words. -/
theorem scheduleRecurrences : Obligations.ScheduleRecurrences := fun blk =>
  ⟨(sha1Schedule_meetsRecurrence blk).of_first, (sha256Schedule_meetsRecurrence blk).of_first,
    (sha512Schedule_meetsRecurrence blk).of_first⟩

/-! ## The initialisation vectors -/

/-- The sixteen H registers of context 0 read its state words in order (R34). -/
theorem readReg_h0_list (s : State) :
    (List.range 16).map (fun i => readReg s (regAt (0x040 + 4 * i))) = s.ctx0.h.toList := by
  refine List.ext_getElem (by simp) fun i hi _ => ?_
  rw [List.length_map, List.length_range] at hi
  rw [List.getElem_map, List.getElem_range, regAt_h0 ⟨i, hi⟩]
  rfl

/-- After INIT the H registers of context 0 read the algorithm's IV (R141, R154). -/
theorem readReg_h0_init (alg : Alg) (s : State) :
    (List.range 16).map (fun i => readReg ((s.setCtx .ctx0 (startedContext alg false 0 (ivOf alg))).complete .none)
      (regAt (0x040 + 4 * i))) = (ivOf alg).toList :=
  readReg_h0_list _

/-- Settles O16: INIT loads the vector of its algorithm, and each vector is the published one. -/
theorem initLoadsThePublishedVectors : Obligations.InitLoadsThePublishedVectors := by
  intro s
  exact ⟨_, _, _, _, rfl, rfl, rfl, rfl, readReg_h0_init .sha1 s, readReg_h0_init .sha256 s, readReg_h0_init .sha512 s,
    readReg_h0_init .rmd160 s⟩

end Sys2Proof.Machine

/-! # SHA-512 on native words

The compression on pairs is the one on 64-bit values, seen through `pairVal` (R129, R216, R217): first each operation, then the loop of the schedule and the loop of the rounds. -/

namespace Sys2Proof.Machine

/-! ## The operations on values -/

theorem pairVal_pairXor (x y : Pair) : pairVal (pairXor x y) = pairVal x ^^^ pairVal y :=
  BitVec.xor_append.symm

theorem pairVal_pairAnd (x y : Pair) : pairVal (pairAnd x y) = pairVal x &&& pairVal y :=
  BitVec.and_append.symm

theorem pairVal_pairNot (x : Pair) : pairVal (pairNot x) = ~~~pairVal x :=
  BitVec.not_append.symm

@[simp] theorem pairVal_pairOf (v : BitVec 64) : pairVal (pairOf v) = v := by
  rw [pairVal, pairOf, BitVec.extractLsb'_append_extractLsb'_eq_extractLsb' (by rfl)]
  exact BitVec.extractLsb'_eq_self

/-- The value of a lane addition is the sum of the values (R129). -/
theorem pairVal_laneAdd {ps : List Pair} (len : ps.length ≤ 5) : pairVal (laneAdd ps) = (ps.map pairVal).sum := by
  rw [laneAdd_eq_pairOf len, pairVal_pairOf]

theorem pairVal_laneAdd_two (x y : Pair) : pairVal (laneAdd [x, y]) = pairVal x + pairVal y := by
  rw [pairVal_laneAdd (by simp)]
  simp

theorem pairVal_pairRotr_eq_rotr64 (x : Pair) {n : Nat} (h : n < 32) :
    pairVal (pairRotr x n) = rotr64 (pairVal x) n :=
  (pairVal_pairRotr x h).trans (rotr64_eq_rotateRight _ (by omega)).symm

theorem pairVal_pairRotrx_eq_rotr64 (x : Pair) {n : Nat} (h : n < 32) :
    pairVal (pairRotrx x n) = rotr64 (pairVal x) (32 + n) :=
  (pairVal_pairRotrx x h).trans (rotr64_eq_rotateRight _ (by omega)).symm

/-! ## The functions of the rule -/

theorem pairVal_sha512Ch (x y z : Pair) :
    pairVal (sha512Ch x y z) = (pairVal x &&& pairVal y) ^^^ (~~~pairVal x &&& pairVal z) := by
  simp only [sha512Ch, pairVal_pairXor, pairVal_pairAnd, pairVal_pairNot]

theorem pairVal_sha512Maj (x y z : Pair) :
    pairVal (sha512Maj x y z) =
      (pairVal x &&& pairVal y) ^^^ (pairVal x &&& pairVal z) ^^^ (pairVal y &&& pairVal z) := by
  simp only [sha512Maj, pairVal_pairXor, pairVal_pairAnd]

theorem pairVal_sha512BigS0 (x : Pair) : pairVal (sha512BigS0 x) = native512BigS0 (pairVal x) := by
  simp (disch := decide) only [sha512BigS0, native512BigS0, pairVal_pairXor, pairVal_pairRotr_eq_rotr64,
    pairVal_pairRotrx_eq_rotr64]

theorem pairVal_sha512BigS1 (x : Pair) : pairVal (sha512BigS1 x) = native512BigS1 (pairVal x) := by
  simp (disch := decide) only [sha512BigS1, native512BigS1, pairVal_pairXor, pairVal_pairRotr_eq_rotr64,
    pairVal_pairRotrx_eq_rotr64]

theorem pairVal_sha512SmallS0 (x : Pair) : pairVal (sha512SmallS0 x) = native512SmallS0 (pairVal x) := by
  simp (disch := decide) only [sha512SmallS0, native512SmallS0, shr64, pairVal_pairXor, pairVal_pairRotr_eq_rotr64,
    pairVal_pairShr]

theorem pairVal_sha512SmallS1 (x : Pair) : pairVal (sha512SmallS1 x) = native512SmallS1 (pairVal x) := by
  simp (disch := decide) only [sha512SmallS1, native512SmallS1, shr64, pairVal_pairXor, pairVal_pairRotr_eq_rotr64,
    pairVal_pairRotrx_eq_rotr64, pairVal_pairShr]

/-! ## The schedule -/

/-- Past the end too: the zero pair has value 0. -/
theorem getD_map_pairVal (W : List Pair) (t : Nat) : (W.map pairVal).getD t 0 = pairVal (W.getD t pairZero) :=
  List.getD_map W pairZero pairVal

/-- SHA-512's recurrence on native words (R212, R217). -/
def native512Next (W : List (BitVec 64)) (t : Nat) : BitVec 64 :=
  native512SmallS1 (W.getD (t - 2) 0) + W.getD (t - 7) 0 + native512SmallS0 (W.getD (t - 15) 0) + W.getD (t - 16) 0

/-- The recurrence on native words computes the values of the recurrence on pairs. -/
theorem native512Next_map (W : List Pair) (t : Nat) : native512Next (W.map pairVal) t = pairVal (sha512Next W t) := by
  rw [sha512Next, pairVal_laneAdd (by simp)]
  simp only [native512Next, getD_map_pairVal, List.map_cons, List.map_nil, List.sum_cons, List.sum_nil, add_zero,
    add_assoc, pairVal_sha512SmallS0, pairVal_sha512SmallS1]

/-- The native schedule is the list of the values of the schedule on pairs (R217). -/
theorem native512Schedule_eq_map (blk : List Byte) : native512Schedule blk = (sha512Schedule blk).map pairVal := by
  have extend (W : List Pair) (t : Nat) :
      W.map pairVal ++ [native512Next (W.map pairVal) t] = (W ++ [sha512Next W t]).map pairVal := by
    rw [native512Next_map, List.map_append, List.map_singleton]
  have first : (List.range 16).map (fun t => be64 blk (8 * t)) =
      ((List.range 16).map fun t => (⟨be32 blk (8 * t), be32 blk (8 * t + 4)⟩ : Pair)).map pairVal := by
    rw [List.map_map]
    rfl
  rw [native512Schedule, first]
  exact List.foldl_hom (List.map pairVal) extend

/-! ## The rounds -/

/-- The values of eight working variables. -/
def Regs8.vals (r : Regs8 Pair) : Regs8 (BitVec 64) :=
  ⟨pairVal r.a, pairVal r.b, pairVal r.c, pairVal r.d, pairVal r.e, pairVal r.f, pairVal r.g, pairVal r.h⟩

/-- A round on values computes the values of the round on pairs: T1 and T2 are sums of values, and so are a and e (R213). -/
theorem native512Round_vals (t : Nat) (w : Pair) (r : Regs8 Pair) :
    native512Round t (pairVal w) r.vals = (sha512Round t w r).vals := by
  have t1 : pairVal (laneAdd [r.h, sha512BigS1 r.e, sha512Ch r.e r.f r.g, pairOf (sha512K t), w]) =
      pairVal r.h + native512BigS1 (pairVal r.e) +
        ((pairVal r.e &&& pairVal r.f) ^^^ (~~~pairVal r.e &&& pairVal r.g)) + sha512K t + pairVal w := by
    rw [pairVal_laneAdd (by simp), ← pairVal_sha512BigS1, ← pairVal_sha512Ch]
    simp [add_assoc]
  have t2 : pairVal (laneAdd [sha512BigS0 r.a, sha512Maj r.a r.b r.c]) =
      native512BigS0 (pairVal r.a) +
        ((pairVal r.a &&& pairVal r.b) ^^^ (pairVal r.a &&& pairVal r.c) ^^^ (pairVal r.b &&& pairVal r.c)) := by
    rw [pairVal_laneAdd_two, pairVal_sha512BigS0, pairVal_sha512Maj]
  simp only [native512Round, sha512Round, Regs8.vals, pairVal_laneAdd_two _ (laneAdd _), t1, t2]

/-- The rounds on the values of a schedule and of a state compute the values of the rounds on pairs. -/
theorem native512Rounds_vals (W : List Pair) (r : Regs8 Pair) (n : Nat) :
    (List.range n).foldl (fun v t => native512Round t ((W.map pairVal).getD t 0) v) r.vals = (sha512Rounds W r n).vals :=
  List.foldl_hom Regs8.vals fun r t => by rw [getD_map_pairVal, native512Round_vals]

/-- Settles O31, by simulation: the values of the schedule, of each round's variables and of the final sums are the native ones. -/
theorem sha512EqualsNative : Obligations.Sha512EqualsNative := by
  intro H blk
  have rounds := native512Rounds_vals (sha512Schedule blk) (sha512Words H) 80
  rw [← native512Schedule_eq_map, Regs8.vals] at rounds
  have feedForward (x y : Pair) : laneAdd [x, y] = pairOf (pairVal x + pairVal y) := eq_pairOf (pairVal_laneAdd_two x y)
  simp only [compressSha512, compressNative512, rounds, feedForward, Regs8.vals]

end Sys2Proof.Machine

/-! # RIPEMD-160 in one loop

The loop that runs a left and a right step for each j gives the two lines run one after the other (R236, R238). -/

namespace Sys2Proof.Machine

/-- A loop on a pair whose components do not read each other is the pair of the two loops. -/
theorem foldl_prod_mk {α β γ : Type} (f : α → γ → α) (g : β → γ → β) (l : List γ) (a : α) (b : β) :
    l.foldl (fun p j => (f p.1 j, g p.2 j)) (a, b) = (l.foldl f a, l.foldl g b) := by
  induction l generalizing a b with
  | nil => rfl
  | cons j l ih => exact ih (f a j) (g b j)

/-! ## The words that the steps read -/

/-- The words of the list, by index (R230). -/
theorem getD_rmdWords (blk : List Byte) {i : Nat} (hi : i < 16) : (rmdWords blk).getD i 0 = le32 blk (4 * i) := by
  simp [rmdWords, List.getD_eq_getElem?_getD, hi]

/-- An entry of a table of word indices is a word index, and so is the default past the table's end. -/
theorem getD_lt_sixteen {table : List Nat} (small : ∀ i ∈ table, i < 16) (j : Nat) : table.getD j 0 < 16 := by
  rcases Nat.lt_or_ge j table.length with inside | past
  · rw [List.getD_eq_getElem _ _ inside]
    exact small _ (List.getElem_mem inside)
  · rw [List.getD_eq_default _ _ past]
    decide

/-- The left line reads words of the block only (R234). -/
theorem rmdR1_getD_lt (j : Nat) : rmdR1.getD j 0 < 16 := getD_lt_sixteen (by decide) j

/-- The right line reads words of the block only (R234). -/
theorem rmdR2_getD_lt (j : Nat) : rmdR2.getD j 0 < 16 := getD_lt_sixteen (by decide) j

/-! ## The lines -/

/-- Step j of the left line of a block (R236). -/
def rmdLeftStep (blk : List Byte) (r : Regs5) (j : Nat) : Regs5 :=
  rmdStep j (rmdK1 (j / 16)) (le32 blk (4 * rmdR1.getD j 0)) (rmdS1.getD j 0) r

/-- Step j of the right line of a block (R236). -/
def rmdRightStep (blk : List Byte) (r : Regs5) (j : Nat) : Regs5 :=
  rmdStep (79 - j) (rmdK2 (j / 16)) (le32 blk (4 * rmdR2.getD j 0)) (rmdS2.getD j 0) r

theorem rmdLeft_rmdWords (blk : List Byte) (r : Regs5) (n : Nat) :
    rmdLeft (rmdWords blk) r n = (List.range n).foldl (rmdLeftStep blk) r := by
  simp only [rmdLeft, getD_rmdWords blk (rmdR1_getD_lt _)]
  rfl

theorem rmdRight_rmdWords (blk : List Byte) (r : Regs5) (n : Nat) :
    rmdRight (rmdWords blk) r n = (List.range n).foldl (rmdRightStep blk) r := by
  simp only [rmdRight, getD_rmdWords blk (rmdR2_getD_lt _)]
  rfl

/-- n left and n right steps in turn are the n left steps and the n right steps: the lines share no register (R236). -/
theorem foldl_rmdLeftStep_rmdRightStep (blk : List Byte) (l r : Regs5) (n : Nat) :
    (List.range n).foldl (fun p j => (rmdLeftStep blk p.1 j, rmdRightStep blk p.2 j)) (l, r) =
      (rmdLeft (rmdWords blk) l n, rmdRight (rmdWords blk) r n) := by
  rw [foldl_prod_mk, rmdLeft_rmdWords, rmdRight_rmdWords]

/-! ## The compression -/

/-- The merge writes H[0..4] and leaves the list of the others (R237, R238). -/
theorem toList_compressRmd160 (H : Vector Word 16) (blk : List Byte) :
    (compressRmd160 H blk).toList = (compressRmd160 H blk).toList.take 5 ++ H.toList.drop 5 := by
  have kept : (compressRmd160 H blk).toList.drop 5 = H.toList.drop 5 := by
    refine List.ext_getElem (by simp) fun i hi _ => ?_
    rw [List.length_drop, Vector.length_toList] at hi
    rw [List.getElem_drop, List.getElem_drop]
    exact compressRmd160_unused H blk ⟨5 + i, by omega⟩ (Nat.le_add_right 5 i)
  rw [← kept, List.take_append_drop]

/-- Settles O32: the loop's two components are the model's two lines, the merge is the same, and the other words stay. -/
theorem rmd160LinesMerge : Obligations.Rmd160LinesMerge := by
  intro H blk X start lines
  have twoLines : lines = (rmdLeft (rmdWords blk) start 80, rmdRight (rmdWords blk) start 80) :=
    foldl_rmdLeftStep_rmdRightStep blk start start 80
  rw [twoLines, toList_compressRmd160]
  rfl

end Sys2Proof.Machine

/-! # HMAC_START, HMAC_FINAL and KEYDIG

The pads byte by byte, what each command writes and what it leaves, and the nested digest that the two contexts compute (R250 to R255). -/

namespace Sys2Proof.Machine

/-! ## K0 and the pads -/

@[simp] theorem length_keyBlock (s : State) (B : Nat) : (keyBlock s B).length = B := by simp [keyBlock]

@[simp] theorem length_innerPad (s : State) (B : Nat) : (innerPad s B).length = B := by simp [innerPad]

@[simp] theorem length_outerPad (s : State) (B : Nat) : (outerPad s B).length = B := by simp [outerPad]

/-- A byte of K0: the key's below KEYLEN, zero from there (R251). -/
theorem getD_keyBlock (s : State) {B i : Nat} (hi : i < B) :
    (keyBlock s B).getD i 0 = if i < s.klen.toNat then keyByte s i else 0 := by
  simp [keyBlock, hi]

theorem getD_innerPad (s : State) {B i : Nat} (hi : i < B) :
    (innerPad s B).getD i 0 = (keyBlock s B).getD i 0 ^^^ 0x36 := by
  simp [innerPad, hi]

theorem getD_outerPad (s : State) {B i : Nat} (hi : i < B) :
    (outerPad s B).getD i 0 = (keyBlock s B).getD i 0 ^^^ 0x5C := by
  simp [outerPad, hi]

/-- Settles O22: each pad byte is a byte of K0 xored with the pad's constant. -/
theorem hmacPadsFromTheKey : Obligations.HmacPadsFromTheKey := by
  intro alg s i B
  refine ⟨by cases alg <;> rfl, fun hi _ => ⟨length_keyBlock s B, length_innerPad s B, length_outerPad s B, ?_, ?_⟩⟩
  · intro inKey
    rw [getD_innerPad s hi, getD_outerPad s hi, getD_keyBlock s hi, if_pos inKey]
    exact ⟨rfl, rfl, rfl⟩
  · intro beyond
    rw [getD_innerPad s hi, getD_outerPad s hi, getD_keyBlock s hi, if_neg (Nat.not_lt.mpr beyond)]
    exact ⟨rfl, rfl, rfl⟩

/-! ## HMAC_START -/

/-- An HMAC context that has absorbed a pad block and nothing else (R252). -/
def padContext (alg : Alg) (pad : List Byte) : Context :=
  startedContext alg true (8 * blockBytes alg) (compressBlock alg (ivOf alg) pad)

theorem exec_hmacStart_fits {alg : Alg} {s : State} (fits : s.klen.toNat ≤ blockBytes alg) :
    exec (.hmacStart alg) s = .next
      (((s.setCtx .ctx0 (padContext alg (innerPad s (blockBytes alg)))).setCtx .ctx1
        (padContext alg (outerPad s (blockBytes alg)))).complete .none) :=
  if_neg (Nat.not_lt.mpr fits)

theorem exec_hmacStart_operand {alg : Alg} {s : State} (large : blockBytes alg < s.klen.toNat) :
    exec (.hmacStart alg) s = .next (s.complete .operand) :=
  if_pos large

/-- Settles O23: the encoded word decodes back, and HMAC_START writes the two pad contexts or the error. -/
theorem hmacStartStartsBothContexts : Obligations.HmacStartStartsBothContexts :=
  fun alg _ => ⟨decodeOfEncode (.hmacStart alg) rfl, exec_hmacStart_fits, exec_hmacStart_operand⟩

/-! ## HMAC_FINAL -/

/-- ctx0 as HMAC_FINAL leaves it: finished with the last nb bytes of data (R253). -/
def innerFinished (s : State) (nb : Nat) : Context := finishContext s.ctx0 s.ctx0.alg (msgSlice s nb)

/-- ctx1 as HMAC_FINAL leaves it: finished with the inner digest as its tail (R253). -/
def outerFinished (s : State) (nb : Nat) : Context :=
  finishContext s.ctx1 s.ctx0.alg (serialize s.ctx0.alg (innerFinished s nb).h)

/-- The state HMAC_FINAL completes: both contexts finished, the outer digest written (R253). -/
def hmacFinished (s : State) (nb : Nat) : State :=
  ((s.setCtx .ctx0 (innerFinished s nb)).setCtx .ctx1 (outerFinished s nb)).writeDigest s.ctx0.alg (outerFinished s nb).h

theorem exec_hmacFinal_ready {nb : Nat} {s : State} (ready : hmacPairReady s = true) (fits : nb < blockBytes s.ctx0.alg) :
    exec (.hmacFinal nb) s = .next ((hmacFinished s nb).complete .none) :=
  (if_neg (by simp [ready])).trans (if_neg (Nat.not_le.mpr fits))

theorem exec_hmacFinal_notReady (nb : Nat) {s : State} (notReady : ¬hmacPairReady s = true) :
    exec (.hmacFinal nb) s = .next (s.complete .state) :=
  if_pos (Bool.eq_false_of_not_eq_true notReady)

theorem exec_hmacFinal_operand {nb : Nat} {s : State} (ready : hmacPairReady s = true)
    (large : blockBytes s.ctx0.alg ≤ nb) : exec (.hmacFinal nb) s = .next (s.complete .operand) :=
  (if_neg (by simp [ready])).trans (if_pos large)

/-- Settles O25: the two finished contexts and the written digest, or the errors in their order. -/
theorem hmacFinalWritesTheOuterDigest : Obligations.HmacFinalWritesTheOuterDigest := by
  intro nb s alg L0 H0 L1 H1 pair
  have ready : hmacPairReady s = true ↔ pair := hmacPairReady_iff s
  refine ⟨fun byte => decodeOfEncode (.hmacFinal nb) (decide_eq_true byte),
    fun isPair fits => ⟨_, exec_hmacFinal_ready (ready.mpr isPair) fits, ?_⟩,
    fun noPair => exec_hmacFinal_notReady nb (mt ready.mp noPair),
    fun isPair => exec_hmacFinal_operand (ready.mpr isPair)⟩
  obtain ⟨⟨-, hmac0⟩, ⟨-, hmac1⟩, sameAlg⟩ := isPair
  have inner : innerFinished s nb = { state := .final, alg := alg, hmac := true, len := BitVec.ofNat 128 L0, h := H0 } := by
    rw [innerFinished, finishContext_eq, length_msgSlice, hmac0]
    rfl
  have outer : outerFinished s nb = { state := .final, alg := alg, hmac := true, len := BitVec.ofNat 128 L1, h := H1 } := by
    rw [outerFinished, inner, finishContext_eq, length_serialize, hmac1, ← sameAlg]
    rfl
  have D_le := (digestBytes_le alg).2
  rw [hmacFinished, inner, outer]
  refine ⟨rfl, rfl, fun i hi => ?_, fun i hD hi => ?_, fun a outside => ?_, rfl⟩
  · exact (digestByte_writeDigest _ alg H1 (by omega)).trans (if_pos hi)
  · exact (digestByte_writeDigest _ alg H1 hi).trans (if_neg (Nat.not_lt.mpr hD))
  · rw [State.complete_mem, read_writeDigest, if_neg outside, State.setCtx_mem, State.setCtx_mem]

/-! ## The nested digest -/

/-- A pad context has absorbed its pad (R252). -/
theorem padContext_absorbed {alg : Alg} {pad : List Byte} (block : pad.length = blockBytes alg) :
    (padContext alg pad).Absorbed alg true pad where
  active := rfl
  alg_eq := rfl
  hmac_eq := rfl
  whole := by rw [block, Nat.mod_self]
  bits := by rw [block]; rfl
  words := by rw [wholeBlocks_single _ (blockBytes_pos alg) pad block]; rfl

/-- A digest is shorter than a block, so it is a tail (R7, R253). -/
theorem digestBytes_lt_blockBytes (alg : Alg) : digestBytes alg < blockBytes alg := by cases alg <;> decide

section NestedDigest

variable {s : State} {alg : Alg} {inner outer : List Byte}
  (absorbed0 : s.ctx0.Absorbed alg true inner) (absorbed1 : s.ctx1.Absorbed alg true outer)
include absorbed0 absorbed1

/-- Two absorbed HMAC contexts of one algorithm are what HMAC_FINAL needs (R253). -/
theorem hmacPairReady_of_absorbed : hmacPairReady s = true :=
  (hmacPairReady_iff s).mpr ⟨⟨absorbed0.active, absorbed0.hmac_eq⟩, ⟨absorbed1.active, absorbed1.hmac_eq⟩,
    absorbed0.alg_eq.trans absorbed1.alg_eq.symm⟩

/-- The outer hash absorbs the inner digest: ctx1 ends with the state of the nested digest (R250, R253). -/
theorem serialize_outerFinished {nb : Nat} (fits : nb < blockBytes alg) :
    serialize alg (outerFinished s nb).h = digestOf alg (outer ++ digestOf alg (inner ++ msgSlice s nb)) := by
  have innerDigest : serialize alg (innerFinished s nb).h = digestOf alg (inner ++ msgSlice s nb) := by
    rw [innerFinished, absorbed0.alg_eq]
    exact absorbed0.serialize_finish ((length_msgSlice s nb).symm ▸ fits)
  rw [outerFinished, absorbed0.alg_eq, ← innerDigest]
  exact absorbed1.serialize_finish ((length_serialize alg _).symm ▸ digestBytes_lt_blockBytes alg)

end NestedDigest

/-- Settles O38: HMAC_START leaves the pads absorbed, and HMAC_FINAL turns what the two contexts absorbed into the nested digest. -/
theorem commandsComputeHmac : Obligations.CommandsComputeHmac := by
  intro alg s
  refine ⟨fun fits => ⟨_, exec_hmacStart_fits fits, rfl, padContext_absorbed (length_innerPad s _),
    padContext_absorbed (length_outerPad s _)⟩, fun ipad opad data nb absorbed0 absorbed1 fits => ?_⟩
  have run := exec_hmacFinal_ready (hmacPairReady_of_absorbed absorbed0 absorbed1) (absorbed0.alg_eq ▸ fits)
  rw [hmacFinished, absorbed0.alg_eq] at run
  refine ⟨_, run, rfl, ?_, dlen_toNat alg, rfl⟩
  exact (digestBytes_writeDigest _ alg _).trans (serialize_outerFinished absorbed0 absorbed1 fits)

/-! ## KEYDIG -/

/-- Bytes written with zeros above them up to n: past their end the default of `getD` is the zero written. -/
theorem Memory.read_writeList_zeroPadded (m : Memory) (a b n : Nat) {bs : List Byte} (fits : bs.length ≤ n) :
    Memory.read (Memory.writeList m a (bs ++ List.replicate (n - bs.length) 0)) b =
      if a ≤ b ∧ b < a + n then bs.getD (b - a) 0 else Memory.read m b := by
  have length : (bs ++ List.replicate (n - bs.length) (0 : Byte)).length = n := by simp [fits]
  rw [Memory.read_writeList, length]
  congr 1
  rcases Nat.lt_or_ge (b - a) bs.length with inside | past
  · rw [List.getD_append _ _ _ _ inside]
  · rw [List.getD_append_right _ _ _ _ past, List.getD_eq_default _ _ past, List.getD_eq_getElem?_getD,
      List.getElem?_getD_replicate_default_eq]

/-- The digest moved into KEY, its length into KEYLEN: the state KEYDIG completes (R254). -/
def keyedFromDigest (s : State) : State :=
  { s with
    mem := Memory.writeList s.mem keyBase
      (digestSlice s s.status.dlen.toNat ++ List.replicate (128 - s.status.dlen.toNat) 0)
    klen := BitVec.ofNat 8 s.status.dlen.toNat }

theorem exec_keydig_digest {s : State} (digest : s.status.dlen.toNat ≠ 0) :
    exec .keydig s = .next ((keyedFromDigest s).complete .none) :=
  if_neg digest

theorem exec_keydig_noDigest {s : State} (noDigest : s.status.dlen.toNat = 0) :
    exec .keydig s = .next (s.complete .state) :=
  if_pos noDigest

@[simp] theorem length_digestSlice (s : State) (n : Nat) : (digestSlice s n).length = n :=
  Memory.length_readList _ _ n

/-- Every byte after the move: KEY holds the digest and zeros above it, the rest is as before (R254). -/
theorem read_keyedFromDigest (s : State) (a : Nat) :
    Memory.read (keyedFromDigest s).mem a =
      if keyBase ≤ a ∧ a < keyBase + 128 then (digestSlice s s.status.dlen.toNat).getD (a - keyBase) 0
      else Memory.read s.mem a := by
  have fits : (digestSlice s s.status.dlen.toNat).length ≤ 128 := by
    rw [length_digestSlice]
    exact Nat.le_of_lt s.status.dlen.isLt
  have written := Memory.read_writeList_zeroPadded s.mem keyBase a 128 fits
  rwa [length_digestSlice] at written

/-- A byte of KEY after the move (R254). -/
theorem read_key_keyedFromDigest (s : State) {i : Nat} (hi : i < 128) :
    Memory.read (keyedFromDigest s).mem (keyBase + i) = (digestSlice s s.status.dlen.toNat).getD i 0 := by
  rw [read_keyedFromDigest, if_pos (by omega), Nat.add_sub_cancel_left]

/-- DLEN's seven bits fit KEYLEN's eight (R24, R37). -/
theorem klen_keyedFromDigest (s : State) : (keyedFromDigest s).klen.toNat = s.status.dlen.toNat :=
  Nat.mod_eq_of_lt (Nat.lt_trans s.status.dlen.isLt (by decide))

/-- Settles O26: the moved digest byte by byte, or the error. -/
theorem keydigMovesTheDigest : Obligations.KeydigMovesTheDigest := by
  refine ⟨decodeOfEncode .keydig rfl, fun s => ⟨fun digest => ?_, fun noDigest =>
    exec_keydig_noDigest (congrArg BitVec.toNat noDigest)⟩⟩
  have dlen_lt := s.status.dlen.isLt
  refine ⟨_, exec_keydig_digest (fun zero => digest (BitVec.eq_of_toNat_eq zero)), fun i hi => ?_, fun i hD hi => ?_,
    klen_keyedFromDigest s, fun a outside => ?_, rfl⟩
  · rw [State.complete_mem, read_key_keyedFromDigest s (by omega)]
    exact Memory.getD_readList s.mem digestBase _ i hi
  · rw [State.complete_mem, read_key_keyedFromDigest s hi]
    exact List.getD_eq_default _ _ ((length_digestSlice s _).symm ▸ hD)
  · rw [State.complete_mem, read_keyedFromDigest, if_neg outside]

end Sys2Proof.Machine

/-! # Completion and command errors

That every command completes, with which code, what a failed one leaves, and the interrupt (R270 to R274, R280, R292). -/

namespace Sys2Proof.Machine

/-! ## The turns that perform no command -/

/-- With nothing to come from outside, the step is the core's turn (R312). -/
theorem step_noEvent {s : State} (noEvent : s.agenda = []) : step s = coreTurn s := by
  simp [step, nextTurn, noEvent]

/-- Settles O7: the step is the core's turn, and the core is idle. -/
theorem idleMachineDoesNothing : Obligations.IdleMachineDoesNothing := fun s idle noEvent =>
  (step_noEvent noEvent).trans (coreTurn_idle ((State.busy_eq_false_iff s).mp idle))

theorem performWord_ok {v : Word} {i : Instr} (legal : decode v = .ok i) (s : State) : performWord v s = exec i s := by
  simp [performWord, legal]

theorem performWord_error {v : Word} {r : Illegal} (illegal : decode v = .error r) (s : State) :
    performWord v s = .next (s.complete .illegal) := by
  simp [performWord, illegal]

/-- Settles O6: the core's turn is the ILLEGAL completion. -/
theorem illegalWordOnlyCompletes : Obligations.IllegalWordOnlyCompletes := fun s _ _ pending illegal =>
  (coreTurn_pending pending).trans (performWord_error illegal s)

/-! ## What every command leaves -/

section Completion

variable {s t : State} {i : Instr}

/-- Every command sets DONE (R273). -/
theorem CommandEffect.done (h : CommandEffect s i t) : t.status.done = true := by cases h <;> rfl

/-- No command changes CMD (R23). -/
theorem CommandEffect.cmd (h : CommandEffect s i t) : t.cmd = s.cmd := by cases h <;> simp

/-- No command reaches the outside world (R17). -/
theorem CommandEffect.outside (h : CommandEffect s i t) :
    t.agenda = s.agenda ∧ t.answer = s.answer ∧ t.freeReads = s.freeReads := by cases h <;> simp

/-- Every command but CLEAR keeps WERR and CERR (R28, R148). -/
theorem CommandEffect.sticky (h : CommandEffect s i t) (notClear : i ≠ .clear) :
    t.status.werr = s.status.werr ∧ t.status.cerr = s.status.cerr := by
  cases h
  case clears => exact absurd rfl notClear
  all_goals simp

/-- After a command IRQ is IE, as DONE is set (R280). -/
theorem CommandEffect.irq (h : CommandEffect s i t) : t.irq = s.ie := by
  rw [State.irq, h.done, h.ie, Bool.true_and]

/-- A command completes without an error, or has done nothing else than complete (R272). -/
theorem CommandEffect.err (h : CommandEffect s i t) : t.status.err = .none ∨ t = s.complete t.status.err := by
  cases h
  case onlyCompletes e => exact .inr rfl
  all_goals exact .inl rfl

end Completion

/-- Settles O9, by the effects of a command. -/
theorem everyCommandCompletes : Obligations.EveryCommandCompletes := by
  intro i s
  obtain ⟨t, ht⟩ := exec_next i s
  have effect := exec_effect ht
  obtain ⟨agenda, answer, freeReads⟩ := effect.outside
  exact ⟨t, ht, (State.busy_eq_false_iff t).mpr effect.pending, effect.done, effect.irq, effect.cmd, effect.ie, agenda,
    answer, freeReads, effect.sticky⟩

/-- A command that completes with an error has only completed (R272). -/
theorem exec_failed {i : Instr} {s t : State} (h : exec i s = .next t) (failed : t.status.err ≠ .none) :
    t = s.complete t.status.err :=
  (exec_effect h).err.resolve_left failed

/-- Settles O12: a failed command, and an illegal word, has only completed. -/
theorem failedCommandChangesOnlyStatus : Obligations.FailedCommandChangesOnlyStatus := by
  refine ⟨fun i s t => exec_failed, fun v s t h failed => ?_⟩
  cases word : decode v with
  | ok i => exact exec_failed ((performWord_ok word s).symm.trans h) failed
  | error r =>
    rw [performWord_error word] at h
    cases h
    rfl

/-! ## The code of a command -/

section Code

variable {i : Instr} {s : State}

/-- A cause of STATE decides, whatever the operands are (R274). -/
theorem exec_stateError (cause : stateErrorCause i s) : exec i s = .next (s.complete .state) := by
  cases i with
  | compress c => exact exec_compress_inactive cause
  | final c nb => exact exec_final_inactive nb cause
  | hmacFinal nb => exact exec_hmacFinal_notReady nb (mt (hmacPairReady_iff s).mp cause)
  | keydig => exact exec_keydig_noDigest (congrArg BitVec.toNat cause)
  | _ => exact cause.elim

/-- A cause of OPERAND decides where no cause of STATE holds (R274). -/
theorem exec_operandError (noState : ¬stateErrorCause i s) (cause : operandErrorCause i s) :
    exec i s = .next (s.complete .operand) := by
  cases i with
  | final c nb => exact exec_final_operand (not_not.mp noState) cause
  | hmacFinal nb => exact exec_hmacFinal_operand ((hmacPairReady_iff s).mpr (not_not.mp noState)) cause
  | hmacStart alg => exact exec_hmacStart_operand cause
  | _ => exact cause.elim

/-- Without a cause of an error the command is performed (R270). -/
theorem exec_noError (noState : ¬stateErrorCause i s) (noOperand : ¬operandErrorCause i s) :
    ∃ u : State, exec i s = .next (u.complete .none) := by
  cases i with
  | compress c => exact ⟨_, exec_compress_active (not_not.mp noState)⟩
  | final c nb => exact ⟨_, exec_final_active (not_not.mp noState) (Nat.not_le.mp noOperand)⟩
  | hmacStart alg => exact ⟨_, exec_hmacStart_fits (Nat.not_lt.mp noOperand)⟩
  | hmacFinal nb =>
    exact ⟨_, exec_hmacFinal_ready ((hmacPairReady_iff s).mpr (not_not.mp noState)) (Nat.not_le.mp noOperand)⟩
  | keydig => exact ⟨_, exec_keydig_digest fun zero => noState (BitVec.eq_of_toNat_eq zero)⟩
  | _ => exact ⟨_, rfl⟩

/-- The code a command completes with, by its causes in their order (R270, R274). -/
theorem exec_code {t : State} (h : exec i s = .next t) :
    (stateErrorCause i s → t.status.err = .state) ∧
      (¬stateErrorCause i s → operandErrorCause i s → t.status.err = .operand) ∧
      (¬stateErrorCause i s → ¬operandErrorCause i s → t.status.err = .none) := by
  refine ⟨fun state => ?_, fun noState operand => ?_, fun noState noOperand => ?_⟩
  · rw [exec_stateError state] at h
    cases h
    rfl
  · rw [exec_operandError noState operand] at h
    cases h
    rfl
  · obtain ⟨u, hu⟩ := exec_noError noState noOperand
    rw [hu] at h
    cases h
    rfl

/-- ILLEGAL is the code of no command (R271). -/
theorem exec_not_illegal {t : State} (h : exec i s = .next t) : t.status.err ≠ .illegal := by
  intro illegal
  obtain ⟨state, operand, success⟩ := exec_code h
  have noState : ¬stateErrorCause i s := fun cause => nomatch illegal.symm.trans (state cause)
  have noOperand : ¬operandErrorCause i s := fun cause => nomatch illegal.symm.trans (operand noState cause)
  exact nomatch illegal.symm.trans (success noState noOperand)

end Code

/-- Settles O13: the causes in their order, and ILLEGAL for the words that are no command. -/
theorem errorCodesAndPrecedence : Obligations.ErrorCodesAndPrecedence := by
  refine ⟨fun i s => (exec_next i s).imp fun t h => ⟨h, exec_code h⟩, fun v s => ?_⟩
  cases word : decode v with
  | ok i =>
    obtain ⟨t, h⟩ := exec_next i s
    exact ⟨t, (performWord_ok word s).trans h, fun code => absurd code (exec_not_illegal h), nofun⟩
  | error r => exact ⟨_, performWord_error word s, fun _ => ⟨r, rfl⟩, fun _ => rfl⟩

/-! ## The interrupt -/

theorem hostWrite_status (s : State) (v : Word) :
    hostWrite s 0x008 4 v = .next { s.writeStatus v with answer := some .ack } :=
  hostWrite_legal s (addr := 0x008) (by decide) rfl v

theorem hostWrite_ctrl (s : State) (v : Word) :
    hostWrite s 0x00C 4 v = .next { s with ie := v.getLsbD 0, answer := some .ack } :=
  hostWrite_legal s (addr := 0x00C) (by decide) rfl v

/-- A 1 in bit 1 of a write to STATUS clears DONE (R24). -/
theorem State.writeStatus_clearsDone (s : State) {v : Word} (bit : v.getLsbD 1 = true) :
    (s.writeStatus v).status.done = false := by
  rw [State.writeStatus_done, bit, Bool.not_true, Bool.and_false]

/-- Settles O52: the issue and a 1 in STATUS bit 1 clear DONE, every command sets it, and the write to CTRL clears IE alone. -/
theorem interruptFollowsDoneAndEnable : Obligations.InterruptFollowsDoneAndEnable := by
  intro s
  refine ⟨Bool.and_eq_true_iff, fun _ => rfl, fun _ _ h => (exec_effect h).irq, fun v t h bit => ?_, fun t h => ?_⟩
  · rw [hostWrite_status] at h
    cases h
    exact congrArg (· && s.ie) (s.writeStatus_clearsDone bit)
  · rw [hostWrite_ctrl] at h
    cases h
    exact ⟨Bool.and_false _, rfl⟩

end Sys2Proof.Machine

/-! # A pending command's end

The model's next events move past one by one, and the core's turn ends whatever is pending (R310, R312). -/

namespace Sys2Proof.Machine

/-! ## What a step leaves of the agenda -/

/-- The core's turn leaves nothing pending and does not touch the events to come (R310). -/
theorem coreTurn_completes {s t : State} (h : coreTurn s = .next t) : t.busy = false ∧ t.agenda = s.agenda := by
  cases pending : s.pending with
  | none =>
    cases (coreTurn_idle pending).symm.trans h
    exact ⟨(State.busy_eq_false_iff s).mpr pending, rfl⟩
  | some v =>
    rw [coreTurn_pending pending] at h
    cases word : decode v with
    | ok i =>
      have effect := exec_effect ((performWord_ok word s).symm.trans h)
      exact ⟨(State.busy_eq_false_iff t).mpr effect.pending, effect.outside.1⟩
    | error r =>
      cases (performWord_error word s).symm.trans h
      exact ⟨rfl, rfl⟩

theorem writeReg_agenda (s : State) (r : Reg) (v : Word) : (writeReg s r v).agenda = s.agenda := by
  cases busy : s.busy <;> cases r <;> simp [writeReg, State.inputWrite, busy]

/-- No event touches the events that come after it (R17). -/
theorem runEvent_agenda {e : Event} {s t : State} (h : runEvent e s = .next t) : t.agenda = s.agenda := by
  cases e with
  | read addr size => obtain ⟨-, ⟨-, rfl⟩ | ⟨-, -, rfl⟩ | ⟨-, -, rfl⟩⟩ := hostRead_cases h <;> rfl
  | write addr size v =>
    obtain ⟨-, ⟨-, rfl⟩ | ⟨-, rfl⟩⟩ := hostWrite_cases h
    · rfl
    · exact writeReg_agenda s _ v
  | core => exact (coreTurn_completes h).2
  | reset => cases h; rfl

/-- A step uses up the event it performs and leaves the later ones (R17). -/
theorem step_agenda {s t : State} {e : Event} {rest : List Event} (next : s.agenda = e :: rest)
    (h : step s = .next t) : t.agenda = rest :=
  runEvent_agenda ((step_event next).symm.trans h)

/-- While every access to come lies in the window, no step stops (R60). -/
theorem step_next_of_inWindow {s : State} (inWindow : ∀ e ∈ s.agenda, eventInWindow e = true) :
    ∃ t, step s = .next t := by
  rcases onlyAccessesOutsideTheWindowStop s with next | ⟨addr, size, rest, outside, -, read | ⟨v, write⟩⟩
  · exact next
  · have inside := inWindow _ (read ▸ List.mem_cons_self)
    exact absurd (of_decide_eq_true inside) (Nat.not_lt.mpr outside)
  · have inside := inWindow _ (write ▸ List.mem_cons_self)
    exact absurd (of_decide_eq_true inside) (Nat.not_lt.mpr outside)

/-! ## Runs -/

/-- A run's first step is the machine's. -/
theorem run_succ {M : Host.Core} {s t : M.State} (h : M.step s = .next t) (k : Nat) : M.run (k + 1) s = M.run k t := by
  rw [Host.Core.run, h]

/-- BUSY = 0 comes at the latest with the core's turn that follows the last event: each earlier event either leaves nothing pending or one event fewer to come (R312). -/
theorem run_idle_of_agenda {agenda : List Event} {s : State} (next : s.agenda = agenda)
    (inWindow : ∀ e ∈ agenda, eventInWindow e = true) :
    ∃ k ≤ agenda.length + 1, ∃ t : State, Host.Core.run Sys2Proof.core k s = .next t ∧ t.busy = false := by
  induction agenda generalizing s with
  | nil =>
    obtain ⟨t, turn⟩ := coreTurn_next s
    exact ⟨1, le_rfl, t, run_succ (M := Sys2Proof.core) ((step_noEvent next).trans turn) 0, (coreTurn_completes turn).1⟩
  | cons e rest ih =>
    obtain ⟨t, ht⟩ := step_next_of_inWindow (next ▸ inWindow)
    cases ended : t.busy with
    | false => exact ⟨1, Nat.le_add_left 1 _, t, run_succ (M := Sys2Proof.core) ht 0, ended⟩
    | true =>
      obtain ⟨k, hk, u, hu, idle⟩ := ih (step_agenda next ht) fun e he => inWindow e (List.mem_cons_of_mem _ he)
      exact ⟨k + 1, Nat.succ_le_succ hk, u, (run_succ (M := Sys2Proof.core) ht k).trans hu, idle⟩

/-- Settles O10, by induction on the events to come. -/
theorem pendingCommandEndsWithinTheAgenda : Obligations.PendingCommandEndsWithinTheAgenda :=
  fun _ _ inWindow => run_idle_of_agenda rfl inWindow

/-! ## The step that performs a command -/

/-- With the core's turn next, the step is the core's turn (R310). -/
theorem step_coreEvent {s : State} {rest : List Event} (next : s.agenda = .core :: rest) :
    step s = coreTurn { s with agenda := rest } := step_event next

/-- The core's turn on a legal word is its command's meaning (R310). -/
theorem coreTurn_legal {s : State} {v : Word} {i : Instr} (pending : s.pending = some v) (word : decode v = .ok i) :
    coreTurn s = exec i s := (coreTurn_pending pending).trans (performWord_ok word s)

/-- A word placed by `withFetchWord` is the pending one in the next step (R310; log 3). -/
theorem step_withFetchWord (s : State) (nbits w : Nat) :
    step (s.withFetchWord nbits w) = coreTurn (s.issue (BitVec.ofNat 32 (w % 2 ^ nbits))) :=
  step_coreEvent (withFetchWord_agenda s nbits w)

theorem decode_of_decodeTableWord {nbits w : Nat} {i : Instr} (h : decodeTableWord nbits w = some i) :
    decode (BitVec.ofNat 32 (w % 2 ^ nbits)) = .ok i := by
  unfold decodeTableWord at h
  cases word : decode (BitVec.ofNat 32 (w % 2 ^ nbits)) with
  | ok j => rw [word] at h; cases h; rfl
  | error r => rw [word] at h; cases h

/-- Settles O5: the step is the core's turn, and the core's turn the command's meaning. -/
theorem stepRunsTheDecodedCommand : Obligations.StepRunsTheDecodedCommand :=
  ⟨fun _ => step_noEvent, fun _ _ => step_coreEvent,
    fun _ _ _ pending word noEvent => (step_noEvent noEvent).trans (coreTurn_legal pending word),
    fun _ _ _ _ pending word next => (step_coreEvent next).trans (coreTurn_legal pending word),
    fun s w _ h => (step_withFetchWord s 32 w).trans (coreTurn_legal (s.issue_pending _) (decode_of_decodeTableWord h))⟩

end Sys2Proof.Machine

/-! # Reset

What every register reads after reset, and that the reset state meets the invariant (R300). -/

namespace Sys2Proof.Machine

/-- Four bytes of an empty buffer memory (R300). -/
theorem readLanes_nil (a : Nat) : readLanes [] a = 0 := by simp [readLanes_eq]

/-- After reset every register but ID reads 0 (R300). -/
theorem readReg_reset {r : Reg} (notId : r ≠ .id) : readReg State.reset r = 0 := by
  cases r with
  | id => exact absurd rfl notId
  | len c k => cases c <;> exact BitVec.extractLsb'_zero
  | h c i => cases c <;> exact Vector.getElem_replicate i.isLt
  | eaH i => exact congrArg Pair.h (Vector.getElem_replicate i.isLt)
  | eaL i => exact congrArg Pair.l (Vector.getElem_replicate i.isLt)
  | ctxInfo c => cases c <;> rfl
  | msg | key | digest => exact readLanes_nil _
  | _ => rfl

/-- ID stands at offset 0 only (R20). -/
theorem regAt_eq_id_iff {addr : Nat} (inside : addr < windowBytes) (aligned : addr % 4 = 0) :
    regAt addr = .id ↔ addr = 0 := by
  refine ⟨fun h => ?_, fun h => h ▸ rfl⟩
  have stands := regAt_stands inside aligned
  simpa [h, standsAt] using stands

/-- Settles O53, register by register; the reset event is one step. -/
theorem resetValues : Obligations.ResetValues := by
  refine ⟨fun k hk => ?_, rfl, rfl, rfl, rfl, fun s rest next => step_event next⟩
  split_ifs with zero
  · rw [zero]; rfl
  · have id_iff := regAt_eq_id_iff (addr := 4 * k) (by simp only [windowBytes]; omega) (by omega)
    exact readReg_reset fun h => zero (by have := id_iff.mp h; omega)

/-- Settles O54, by the invariant's own lemma about reset. -/
theorem resetMeetsTheInvariant : Obligations.ResetMeetsTheInvariant := State.inv_reset

end Sys2Proof.Machine

/-! # Accesses while a command is pending

What a write does while BUSY = 1 (R320), which reads are unspecified then, and what the completion leaves of the others (R321). -/

namespace Sys2Proof.Machine

/-! ## Writes while BUSY = 1 -/

theorem ctxCode_lt (c : CtxId) : ctxCode c < 2 := by cases c <;> decide

/-- The input registers fill their offsets: KEYLEN, MSG and KEY, EA (R20, R28). -/
theorem inputReg_of_addr {r : Reg} {addr : Nat} (stands : standsAt r addr = true)
    (range : addr = 0x010 ∨ (0x100 ≤ addr ∧ addr < 0x200) ∨ (0x240 ≤ addr ∧ addr < 0x268)) : isInputReg r = true := by
  cases r with
  | keylen | msg | key | eaH | eaL => rfl
  | len c k | h c k =>
    have := ctxCode_lt c
    simp only [standsAt, decide_eq_true_eq] at stands
    omega
  | ctxInfo c =>
    have := ctxCode_lt c
    simp only [standsAt, decide_eq_true_eq] at stands
    omega
  | _ => simp only [standsAt, decide_eq_true_eq] at stands; omega

/-- While BUSY = 1 a write to an input register is dropped and sets WERR (R28, R320). -/
theorem writeReg_input_busy {s : State} (busy : s.busy = true) {r : Reg} (input : isInputReg r = true) (v : Word) :
    writeReg s r v = { s with status := { s.status with werr := true } } := by
  cases r with
  | keylen | msg | key | eaH | eaL => exact State.inputWrite_busy busy _
  | _ => cases input

/-- Settles O46, by the statement's ranges of offsets. -/
theorem writesWhileBusy : Obligations.WritesWhileBusy := by
  intro s addr v busy inside aligned
  refine ⟨_, hostWrite_legal s inside aligned v, ?_⟩
  dsimp only
  split_ifs with cmd input status ctrl
  · rw [cmd, show writeReg s (regAt 0x004) v = _ from if_pos busy]
  · rw [writeReg_input_busy busy (inputReg_of_addr (regAt_stands inside aligned) input)]
  · rw [status]; rfl
  · rw [ctrl]; rfl
  · rw [writeReg_ignored s v aligned (by omega)]

/-! ## Reads while BUSY = 1 -/

theorem ctxCode_inj {c d : CtxId} : ctxCode c = ctxCode d ↔ c = d :=
  (Function.LeftInverse.injective ctxOfCode_ctxCode).eq_iff

/-- LENc_k and Hc_i, by their offsets (R20). -/
def lenOrHAt (c : CtxId) (addr : Nat) : Prop :=
  (0x020 + 0x10 * ctxCode c ≤ addr ∧ addr < 0x030 + 0x10 * ctxCode c) ∨
    (0x040 + 0x40 * ctxCode c ≤ addr ∧ addr < 0x080 + 0x40 * ctxCode c)

/-- Every register of one context, by its offset (R20). -/
def contextAt (c : CtxId) (addr : Nat) : Prop := lenOrHAt c addr ∨ addr = 0x014 + 4 * ctxCode c

/-- DIGEST, by its offsets (R20). -/
def digestAt (addr : Nat) : Prop := 0x200 ≤ addr ∧ addr < 0x240

section WrittenOffsets

variable {addr : Nat} (inside : addr < windowBytes) (aligned : addr % 4 = 0)

include inside aligned

/-- COMPRESS writes LENc_k and Hc_i of its context (R142). -/
theorem writesReg_compress_iff (c : CtxId) : writesReg (.compress c) (regAt addr) = true ↔ lenOrHAt c addr := by
  have stands := regAt_stands inside aligned
  have := ctxCode_lt c
  unfold lenOrHAt
  cases hr : regAt addr with
  | len d k | h d k =>
    have := ctxCode_lt d
    simp only [hr, standsAt, decide_eq_true_eq] at stands
    simp only [writesReg, beq_iff_eq, ← ctxCode_inj]
    omega
  | ctxInfo d =>
    have := ctxCode_lt d
    simp only [hr, standsAt, decide_eq_true_eq] at stands
    simp only [writesReg, Bool.false_eq_true, false_iff]
    omega
  | _ =>
    simp only [hr, standsAt, decide_eq_true_eq] at stands
    simp only [writesReg, Bool.false_eq_true, false_iff]
    omega

theorem regAt_eq_ctxInfo_iff (c : CtxId) : regAt addr = .ctxInfo c ↔ addr = 0x014 + 4 * ctxCode c := by
  refine ⟨fun h => ?_, fun h => ?_⟩
  · simpa [h, standsAt] using regAt_stands inside aligned
  · subst h
    cases c <;> rfl

/-- INIT writes every register of its context (R141). -/
theorem writesReg_init_iff (alg : Alg) (c : CtxId) :
    writesReg (.init alg c) (regAt addr) = true ↔ contextAt c addr := by
  rw [contextAt, ← writesReg_compress_iff inside aligned, ← regAt_eq_ctxInfo_iff inside aligned]
  cases regAt addr with
  | ctxInfo d => simpa [writesReg] using eq_comm
  | _ => simp [writesReg]

theorem exists_regAt_eq_digest_iff : (∃ i, regAt addr = .digest i) ↔ digestAt addr := by
  refine ⟨fun ⟨i, hi⟩ => ?_, fun ⟨above, below⟩ => ?_⟩
  · have stands := regAt_stands inside aligned
    simp only [hi, standsAt, decide_eq_true_eq] at stands
    unfold digestAt
    omega
  · obtain ⟨k, rfl⟩ : ∃ k, addr = 0x200 + 4 * k := ⟨(addr - 0x200) / 4, by omega⟩
    exact ⟨⟨k, by omega⟩, regAt_digest ⟨k, _⟩⟩

/-- FINAL writes its context and DIGEST (R145). -/
theorem writesReg_final_iff (c : CtxId) (nb : Nat) :
    writesReg (.final c nb) (regAt addr) = true ↔ contextAt c addr ∨ digestAt addr := by
  rw [← writesReg_init_iff inside aligned .sha1, ← exists_regAt_eq_digest_iff inside aligned]
  cases regAt addr <;> simp [writesReg]

/-- HMAC_START writes both contexts (R252). -/
theorem writesReg_hmacStart_iff (alg : Alg) :
    writesReg (.hmacStart alg) (regAt addr) = true ↔ contextAt .ctx0 addr ∨ contextAt .ctx1 addr := by
  rw [← writesReg_init_iff inside aligned .sha1, ← writesReg_init_iff inside aligned .sha1]
  cases regAt addr with
  | ctxInfo c | len c _ | h c _ => cases c <;> simp [writesReg]
  | _ => simp [writesReg]

/-- HMAC_FINAL writes both contexts and DIGEST (R253). -/
theorem writesReg_hmacFinal_iff (nb : Nat) :
    writesReg (.hmacFinal nb) (regAt addr) = true ↔ contextAt .ctx0 addr ∨ contextAt .ctx1 addr ∨ digestAt addr := by
  rw [← or_assoc, ← writesReg_hmacStart_iff inside aligned .sha1, ← exists_regAt_eq_digest_iff inside aligned]
  cases regAt addr <;> simp [writesReg]

theorem regAt_eq_keylen_iff : regAt addr = .keylen ↔ addr = 0x010 := by
  refine ⟨fun h => ?_, fun h => h ▸ rfl⟩
  simpa [h, standsAt] using regAt_stands inside aligned

theorem exists_regAt_eq_key_iff : (∃ i, regAt addr = .key i) ↔ 0x180 ≤ addr ∧ addr < 0x200 := by
  refine ⟨fun ⟨i, hi⟩ => ?_, fun ⟨above, below⟩ => ?_⟩
  · have stands := regAt_stands inside aligned
    simp only [hi, standsAt, decide_eq_true_eq] at stands
    omega
  · obtain ⟨k, rfl⟩ : ∃ k, addr = 0x180 + 4 * k := ⟨(addr - 0x180) / 4, by omega⟩
    exact ⟨⟨k, by omega⟩, regAt_key ⟨k, _⟩⟩

/-- KEYDIG writes KEYLEN and KEY (R254). -/
theorem writesReg_keydig_iff :
    writesReg .keydig (regAt addr) = true ↔ addr = 0x010 ∨ (0x180 ≤ addr ∧ addr < 0x200) := by
  rw [← regAt_eq_keylen_iff inside aligned, ← exists_regAt_eq_key_iff inside aligned]
  cases regAt addr <;> simp [writesReg]

/-- CLEAR writes KEYLEN, both contexts, and everything from MSG to ER (R148). -/
theorem writesReg_clear_iff :
    writesReg .clear (regAt addr) = true ↔
      addr = 0x010 ∨ contextAt .ctx0 addr ∨ contextAt .ctx1 addr ∨ (0x100 ≤ addr ∧ addr < 0x270) := by
  have stands := regAt_stands inside aligned
  rw [← or_assoc (a := contextAt .ctx0 addr), ← writesReg_hmacStart_iff inside aligned .sha1]
  cases hr : regAt addr with
  | len | h | ctxInfo => simp [writesReg]
  | id | cmd | status | ctrl | reserved =>
    simp only [hr, standsAt, decide_eq_true_eq] at stands
    simp only [writesReg, Bool.false_eq_true, false_or, false_iff]
    omega
  | _ =>
    simp only [hr, standsAt, decide_eq_true_eq] at stands
    simp only [writesReg, true_iff]
    omega

/-- The emulation commands, here EADD2, write ER (R130). -/
theorem writesReg_eadd2_iff : writesReg .eadd2 (regAt addr) = true ↔ addr = 0x268 ∨ addr = 0x26C := by
  refine ⟨fun written => ?_, fun result => by rcases result with rfl | rfl <;> rfl⟩
  have stands := regAt_stands inside aligned
  cases hr : regAt addr with
  | erH => exact .inl (by simpa [hr, standsAt] using stands)
  | erL => exact .inr (by simpa [hr, standsAt] using stands)
  | _ => rw [hr] at written; cases written

end WrittenOffsets

/-- While a legal word is pending, the unspecified reads are those of the registers its command writes (R321). -/
theorem readUnspecified_legal {s : State} {v : Word} {i : Instr} (pending : s.pending = some v)
    (word : decode v = .ok i) (r : Reg) : readUnspecified s r = writesReg i r := by
  simp [readUnspecified, pending, word]

/-- A legal read of a register that the pending command writes answers the next free value (R321). -/
theorem hostRead_unspecified {s : State} {addr : Nat} (hw : addr < windowBytes) (aligned : addr % 4 = 0)
    (unspecified : readUnspecified s (regAt addr) = true) :
    hostRead s addr 4 =
      .next { s with answer := some (.data (Config.busyRead s.freeReads)), freeReads := s.freeReads + 1 } := by
  have : legalAccess addr 4 = true := by simp [legalAccess, aligned]
  simp [hostRead, Nat.not_le.mpr hw, this, unspecified]

/-- Settles O51, by the offsets of the registers that each command writes. -/
theorem unspecifiedReadsAreExactlyThese : Obligations.UnspecifiedReadsAreExactlyThese := by
  unfold Obligations.UnspecifiedReadsAreExactlyThese
  intro lenOrH ofContext digest writtenBy s v i addr pending word inside aligned
  have offsets : writesReg i (regAt addr) = true ↔ writtenBy i addr := by
    cases i with
    | nop | selftest => exact iff_of_false Bool.false_ne_true id
    | init alg c => exact writesReg_init_iff inside aligned alg c
    | compress c => exact writesReg_compress_iff inside aligned c
    | final c nb => exact writesReg_final_iff inside aligned c nb
    | clear => exact writesReg_clear_iff inside aligned
    | hmacStart alg => exact writesReg_hmacStart_iff inside aligned alg
    | hmacFinal nb => exact writesReg_hmacFinal_iff inside aligned nb
    | keydig => exact writesReg_keydig_iff inside aligned
    | eadd2 | eadd3 | eadd4 | eadd5 | erotr | erotrx | eshr => exact writesReg_eadd2_iff inside aligned
  rw [← offsets, ← readUnspecified_legal pending word]
  exact ⟨fun written => ⟨_, hostRead_unspecified inside aligned written⟩,
    fun unwritten => hostRead_specified inside aligned (Bool.eq_false_iff.mpr unwritten)⟩

/-! ## What a command leaves of the registers it does not write -/

theorem readLanes_congr {m m' : Memory} {a : Nat} (agree : ∀ j < 4, Memory.read m' (a + j) = Memory.read m (a + j)) :
    readLanes m' a = readLanes m a := by
  rw [readLanes, readLanes, Memory.readList_congr m' m a 4 agree]

section Unwritten

variable {s t : State} {i : Instr} (h : CommandEffect s i t)

include h

/-- A context whose CTXc_INFO the command does not write is as before, or COMPRESS changed its H and LEN (R142, R321). -/
theorem CommandEffect.ctx_of_info_unwritten {c : CtxId} (unwritten : writesReg i (.ctxInfo c) = false) :
    t.ctx c = s.ctx c ∨ (i = .compress c ∧ ∃ H len, t.ctx c = { s.ctx c with h := H, len := len }) := by
  rcases h.ctx c with same | ⟨alg, rfl, -⟩ | ⟨alg, -, rfl, -⟩ | ⟨rfl, -, compressed⟩ | ⟨⟨nb, rfl⟩ | ⟨nb, rfl⟩, -⟩ | ⟨rfl, -⟩
  · exact .inl same
  case inr.inr.inr.inl => exact .inr ⟨rfl, compressed⟩
  all_goals simp [writesReg] at unwritten

/-- A command that does not write LENc_k and Hc_i does not write the context (R321). -/
theorem CommandEffect.ctx_unwritten {c : CtxId} {k : Fin 4} (unwritten : writesReg i (.len c k) = false) :
    t.ctx c = s.ctx c := by
  have info : writesReg i (.ctxInfo c) = false := by
    cases i with
    | compress => rfl
    | _ => exact unwritten
  rcases h.ctx_of_info_unwritten info with same | ⟨rfl, -⟩
  · exact same
  · simp [writesReg] at unwritten

theorem CommandEffect.er_unwritten (unwritten : writesReg i .erH = false) : t.er = s.er := by
  rcases h.er with same | (rfl | rfl | rfl | rfl | ⟨n, rfl | rfl | rfl⟩) | rfl
  · exact same
  all_goals cases unwritten

/-- MSG and KEY words that the command does not write keep their four bytes (R38, R39, R321). -/
theorem CommandEffect.inputLanes_unwritten {a : Nat} (below : a + 4 ≤ digestBase) (notClear : i ≠ .clear)
    (notKeydig : i = .keydig → a + 4 ≤ keyBase) : readLanes t.mem a = readLanes s.mem a := by
  refine readLanes_congr fun j hj => ?_
  rcases h.inputByte (a := a + j) (by omega) with same | ⟨keydig, inKey⟩ | clear
  · exact same
  · have := notKeydig keydig
    omega
  · exact absurd clear notClear

/-- DIGEST words keep their bytes over a command that does not write them (R40, R321). -/
theorem CommandEffect.digestLanes_unwritten {k : Fin 16} (unwritten : writesReg i (.digest k) = false) :
    readLanes t.mem (digestBase + 4 * k.val) = readLanes s.mem (digestBase + 4 * k.val) := by
  rcases h.digest with ⟨-, -, same⟩ | (⟨c, nb, rfl⟩ | ⟨nb, rfl⟩) | ⟨rfl, -⟩
  · exact readLanes_congr fun j hj => by
      rw [Nat.add_assoc]
      exact same _ (by omega)
  all_goals cases unwritten

/-- A command changes no register that its rule does not write, STATUS left aside (R321). -/
theorem CommandEffect.readReg_unwritten {r : Reg} (notStatus : r ≠ .status) (unwritten : writesReg i r = false) :
    readReg t r = readReg s r := by
  cases r with
  | id | reserved => rfl
  | status => exact absurd rfl notStatus
  | cmd => exact h.cmd
  | ctrl => simp only [readReg, ctrlWord, h.ie]
  | keylen =>
    rcases h.klen with same | rfl | rfl
    · simp only [readReg, keylenWord, same]
    all_goals cases unwritten
  | ctxInfo c =>
    rcases h.ctx_of_info_unwritten unwritten with same | ⟨-, H, len, compressed⟩
    · simp only [readReg, same]
    · simp only [readReg, compressed, ctxInfoWord]
  | len c k => simp only [readReg, h.ctx_unwritten unwritten]
  | h c k =>
    have same : t.ctx c = s.ctx c := h.ctx_unwritten (k := 0) (by cases i <;> exact unwritten)
    simp only [readReg, same]
  | msg k =>
    refine h.inputLanes_unwritten ?_ ?_ fun _ => ?_
    · simp only [msgBase, digestBase]; omega
    · rintro rfl; cases unwritten
    · simp only [msgBase, keyBase]; omega
  | key k =>
    refine h.inputLanes_unwritten ?_ ?_ ?_
    · simp only [keyBase, digestBase]; omega
    all_goals rintro rfl; cases unwritten
  | digest k => exact h.digestLanes_unwritten unwritten
  | eaH k | eaL k =>
    rcases h.ea with same | rfl
    · simp only [readReg, same]
    · cases unwritten
  | erH => simp only [readReg, h.er_unwritten unwritten]
  | erL =>
    have same : t.er = s.er := h.er_unwritten (by cases i <;> exact unwritten)
    simp only [readReg, same]

end Unwritten

/-- Settles O49, by the effect of the command, register by register. -/
theorem specifiedReadsAreNotWritten : Obligations.SpecifiedReadsAreNotWritten :=
  fun _ _ _ _ h notStatus unwritten => (exec_effect h).readReg_unwritten notStatus unwritten

end Sys2Proof.Machine
